-- ==== Sys2Proof/Word.lean ====
section
/-! DEFINITION. The two widths of bit vector that cross the ports of the block (spec/00_scope.md R4, R6):
32-bit words and the 8-bit command byte. A word is a vector of bits with bit 31 the sign of a
floating-point pattern; the block gives it no byte order (spec/20_memory.md R22). -/

namespace Sys2Proof

/-- An operand or response word: 32 bits (R6, R24). -/
abbrev Word := BitVec 32

/-- The command byte: 8 bits (R30). -/
abbrev Byte := BitVec 8

end Sys2Proof
end

