-- ==== Sys2Proof/Config.lean ====
section
/-! DEFINITION. The parameters of spec/00_scope.md R4 as this hardware fixes them, the lines the outside world
drives into the block (spec/10_state.md R9), and the one free value of the model: what a clock edge brings
when the state does not list it. -/

namespace Sys2Proof

/-- The six input lines of R9, as they stand at one rising edge of `clk`. The host drives them; no rule of the
spec fixes any of them (R81, R84). -/
structure Pins where
  /-- `rst`: synchronous reset, active high (R79). -/
  rst : Bool
  /-- `req_valid`: the host offers a command. -/
  reqValid : Bool
  /-- `req_cmd`: the command byte. -/
  reqCmd : Byte
  /-- `req_a`: operand `a`. -/
  reqA : Word
  /-- `req_b`: operand `b`. -/
  reqB : Word
  /-- `rsp_ready`: the host takes the response. -/
  rspReady : Bool
deriving DecidableEq, Repr, Inhabited

/-- What one rising edge brings from outside the rules: the host's input lines, and the choice that R83 leaves
open to the block. `slack` matters only at an edge that accepts a command: that command's `LAT` (R4, R11) is
`slack + 1`, so the latency is any positive number and may differ from command to command (R83). -/
structure Edge where
  /-- The input lines at this edge. -/
  pins : Pins
  /-- `LAT - 1` of a command accepted at this edge. -/
  slack : Nat
deriving DecidableEq, Repr, Inhabited

namespace Config

/-- `CANON_NAN` (R4, R43; spec/92_eei_decisions.md D10; spec/93_implementation_defined.md U1): the one NaN
pattern that `ADD`, `SUB`, `MUL` and `DIV` return. -/
def canonNaN : Word := 0x7FC00000#32

/-- `RM_EXT` (R4, R32; spec/92_eei_decisions.md D9): false in this hardware, so round-to-nearest-even is the one
legal rounding mode. -/
def rmExt : Bool := false

/-- FREE VALUE (notes/assumptions/2.md and 3.md). What the `n`-th clock edge brings when the state lists nothing
for it: any input lines (the host's, R81) and any latency (R83, U7). It has no body, so nothing can be proved of
its values. -/
opaque freeEdge (n : Nat) : Edge

end Config

end Sys2Proof
end

