-- ==== Sys2Proof/Syntax.lean ====
section
/-! DEFINITION. The commands of the block: the command as it crosses the request port (spec/30_encoding.md R30)
and the fourteen instructions it can stand for (R31), one constructor for each row of spec/opcode_table.json. -/

namespace Sys2Proof

/-- A command as the host offers it: the command byte and two operand words (R30). -/
structure Command where
  /-- `cmd`: `rm` in bits 7:5, `op` in bits 4:0. -/
  cmd : Byte
  /-- Operand word `a`. -/
  a : Word
  /-- Operand word `b`. -/
  b : Word
deriving DecidableEq, Repr, Inhabited

/-- The five named rounding modes of R32. With `RM_EXT = false` only `rne` can be written in a command byte. -/
inductive Rm where
  /-- `RNE`: to nearest, ties to even. -/
  | rne
  /-- `RTZ`: toward zero (extension). -/
  | rtz
  /-- `RDN`: toward minus infinity (extension). -/
  | rdn
  /-- `RUP`: toward plus infinity (extension). -/
  | rup
  /-- `RMM`: to nearest, ties away from zero (extension). -/
  | rmm
deriving DecidableEq, Repr

/-- The fourteen commands of R31 with the operands they read (formats F1, F2, FC of R33). Bits that a format
ignores (`b` in F1, `b[30:16]` in FC) are no part of the instruction. -/
inductive Instr where
  /-- `CLASS` (R50, format F1). -/
  | classify (a : Word)
  /-- `DECOMP` (R51, format F1). -/
  | decomp (a : Word)
  /-- `COMPOSE` (R52, format FC): the mantissa `m`, and the sign and 16-bit exponent field of the SE word. -/
  | compose (rm : Rm) (m : Word) (sign : Bool) (e : BitVec 16)
  /-- `ADD` (R56, format F2). -/
  | add (rm : Rm) (a b : Word)
  /-- `SUB` (R57, format F2). -/
  | sub (rm : Rm) (a b : Word)
  /-- `MUL` (R59, format F2). -/
  | mul (rm : Rm) (a b : Word)
  /-- `DIV` (R61, format F2). -/
  | div (rm : Rm) (a b : Word)
  /-- `CMP` (R64, format F2). -/
  | cmp (a b : Word)
  /-- `EQ` (R65, format F2). -/
  | eq (a b : Word)
  /-- `NE` (R66, format F2). -/
  | ne (a b : Word)
  /-- `LT` (R67, format F2). -/
  | lt (a b : Word)
  /-- `LE` (R68, format F2). -/
  | le (a b : Word)
  /-- `GT` (R69, format F2). -/
  | gt (a b : Word)
  /-- `GE` (R70, format F2). -/
  | ge (a b : Word)
deriving DecidableEq, Repr

end Sys2Proof
end

