-- ==== Sys2Proof/Machine/State.lean ====
section
/-! DEFINITION. The state of the block (spec/10_state.md R8) and the reasons a step can stop. The block's own
state is `phase` and nothing else: no register, flag, memory or program counter (R13 to R19). The other three
fields are the MODEL's: they stand for the clock, for the host at the other end of the ports, and for the
latency that R83 leaves open (notes/assumptions/2.md, 3.md, 4.md). -/

namespace Sys2Proof.Machine

/-- A response: two words and the error bit (spec/30_encoding.md R34). -/
structure Response where
  /-- Response word `y`. -/
  y : Word
  /-- Response word `z`. -/
  z : Word
  /-- `err`: 1 exactly for an illegal command (R34, R73). -/
  err : Bool
deriving DecidableEq, Repr, Inhabited

/-- The one state element of the block (R8). -/
inductive Phase where
  /-- `IDLE`: no command in the block. -/
  | idle
  /-- `BUSY(cmd, a, b)`: a command has been accepted and its response is not yet visible. -/
  | busy (c : Command)
  /-- `DONE(y, z, err)`: the response is offered and has not been taken. -/
  | done (r : Response)
deriving DecidableEq, Repr

/-- The machine: the block's phase, and the model's own account of what the coming clock edges bring. -/
structure State where
  /-- The block's state (R8). -/
  phase : Phase
  /-- MODEL's own: while the phase is `BUSY`, how many edges pass before the edge that takes COMPLETE. -/
  slack : Nat
  /-- MODEL's own: what the coming clock edges bring, the next one first. Edges beyond the list bring the free
  value `Config.freeEdge`. -/
  schedule : List Edge
  /-- MODEL's own: how many clock edges have passed; the argument of the free value. -/
  edges : Nat
deriving DecidableEq, Repr

/-- The block raises no exception and no command stops it (spec/60_exceptions.md R72), so there is no fault: the
type has no constructor. Nobody raises one. -/
inductive Fault : Type
deriving DecidableEq, Repr

/-- Why a step can be refused. -/
inductive Refusal where
  /-- An instruction of the opcode table that the model gives no meaning. Raised by no arm of `exec`: all fourteen
  have their meaning. Were it raised it would be safe: the run stops. -/
  | notModelled (mnemonic : String)
deriving DecidableEq, Repr

/-- Right after reset the phase is `IDLE` (R20, R79). The model's own fields start at nothing listed and zero
(notes/assumptions/4.md). -/
def State.reset : State where
  phase := .idle
  slack := 0
  schedule := []
  edges := 0

end Sys2Proof.Machine
end

