-- ==== Sys2Proof/Machine/Ops.lean ====
section
/-! DEFINITION. The named operations on the state: what a clock edge brings, the effects of the four steps ACCEPT,
COMPLETE, DELIVER and reset on the phase (spec/10_state.md R10 to R12, spec/70_reset_and_hazards.md R79), the error
response (spec/60_exceptions.md R73), and the output lines (R9). The block has no exception entry and no return
from one (R72, R76): the error response is the only thing it reports. -/

namespace Sys2Proof.Machine

/-- What the coming clock edge brings: the head of the schedule, or the free value where the schedule is empty. -/
def nextEdge (s : State) : Edge :=
  match s.schedule with
  | [] => Config.freeEdge s.edges
  | e :: _ => e

/-- The input lines at the coming clock edge. -/
def pins (s : State) : Pins := (nextEdge s).pins

/-- The clock edge passes: the model's own account of the outside world moves on. -/
def tick (s : State) : State := { s with schedule := s.schedule.tail, edges := s.edges + 1 }

/-- Effect of COMPLETE: `respond(y, z, err)` puts the response on the port (R11, spec/00_scope.md, Notation). -/
def respond (y z : Word) (err : Bool) (s : State) : State := { s with phase := .done ⟨y, z, err⟩ }

/-- `respond(0, 0, 1)`: the one error the block reports (R35, R73). -/
def respondIllegal (s : State) : State := respond 0#32 0#32 true s

/-- What a legal command that returns one word does: `respond(y, 0, 0)`. -/
def answer (y : Word) (s : State) : Host.Outcome State Fault Refusal := .next (respond y 0#32 false s)

/-- What a legal command that returns two words does: `respond(y, z, 0)` (`DECOMP`, R34). -/
def answer2 (y z : Word) (s : State) : Host.Outcome State Fault Refusal := .next (respond y z false s)

/-- The command on the request lines. -/
def offered (p : Pins) : Command := ⟨p.reqCmd, p.reqA, p.reqB⟩

/-- Effect of ACCEPT (R10): the three request words are sampled together. The command's latency is drawn with
it (R83). -/
def accept (e : Edge) (s : State) : State := { s with phase := .busy (offered e.pins), slack := e.slack }

/-- A `BUSY` edge that does not take COMPLETE yet (R11, R83). -/
def wait (s : State) : State := { s with slack := s.slack - 1 }

/-- Effect of DELIVER (R12): the host has the response. -/
def deliver (s : State) : State := { s with phase := .idle }

/-- Effect of an edge with `rst = 1` (R79): whatever the phase was, it is `IDLE`. -/
def resetBlock (s : State) : State := { s with phase := .idle, slack := 0 }

/-- Output `req_ready` (R9): 1 exactly when the phase is `IDLE` and `rst = 0`. -/
def reqReady (s : State) : Bool := decide (s.phase = .idle) && !(pins s).rst

/-- Output lines `rsp_y`, `rsp_z`, `rsp_err` (R9): the fields of `DONE(y, z, err)`; no value while `rsp_valid = 0`
(spec/93_implementation_defined.md U3). -/
def rspLines (s : State) : Option Response :=
  match s.phase with
  | .idle => none
  | .busy _ => none
  | .done r => some r

/-- Output `rsp_valid` (R9): 1 exactly when the phase is `DONE(..)`. -/
def rspValid (s : State) : Bool := (rspLines s).isSome

end Sys2Proof.Machine
end

