-- ==== Sys2Proof/WellFormed.lean ====
section
/-! DEFINITION. Which instructions a command byte can carry (spec/30_encoding.md R32, R35): every operand value
is legal (R33), so the one check is that the rounding mode is legal. -/

namespace Sys2Proof

/-- A rounding mode is legal when it is `RNE`, or when the parameter `RM_EXT` (here `ext`) is true (R32). -/
def Rm.legal (ext : Bool) : Rm → Bool
  | .rne => true
  | .rtz => ext
  | .rdn => ext
  | .rup => ext
  | .rmm => ext

/-- The rounding mode a command carries, for the five commands that round (R31, column "Uses `rm`"). -/
def Instr.mode? : Instr → Option Rm
  | .classify _ => none
  | .decomp _ => none
  | .compose rm _ _ _ => some rm
  | .add rm _ _ => some rm
  | .sub rm _ _ => some rm
  | .mul rm _ _ => some rm
  | .div rm _ _ => some rm
  | .cmp _ _ => none
  | .eq _ _ => none
  | .ne _ _ => none
  | .lt _ _ => none
  | .le _ _ => none
  | .gt _ _ => none
  | .ge _ _ => none

/-- Well-formed under a value of `RM_EXT`: the rounding mode, if the command has one, is legal (R32, R35). -/
def Instr.wellFormedWith (ext : Bool) (i : Instr) : Bool :=
  match i.mode? with
  | none => true
  | some rm => rm.legal ext

/-- Well-formed in this hardware (`RM_EXT = false`, R4). -/
def Instr.wellFormed (i : Instr) : Bool := i.wellFormedWith Config.rmExt

end Sys2Proof
end

