-- ==== Sys2Proof/Decode.lean ====
section
/-! DEFINITION. From a command to an instruction and back (spec/30_encoding.md R30 to R33, R35). The decoder is
total on all 2^72 commands: it gives an instruction, or rejects the command byte by name. What the block answers
to a rejected byte is in Machine/Handshake.lean (R73). -/

namespace Sys2Proof

/-- Why a command byte is illegal (R35). Both reasons get the same response (spec/60_exceptions.md R75). -/
inductive Rejection where
  /-- `op` is not one of the fourteen assigned values (R31). -/
  | reservedOp (op : BitVec 5)
  /-- `rm` is not legal for this `op` (R32). -/
  | illegalMode (rm : BitVec 3)
deriving DecidableEq, Repr

/-- The outcome of decoding: an instruction, or a named rejection. -/
inductive Decoded where
  /-- A legal command. -/
  | instr (i : Instr)
  /-- An illegal command byte. -/
  | rejected (why : Rejection)
deriving DecidableEq, Repr

/-- `cmd[4:0]` (R30). -/
def opField (cmd : Byte) : BitVec 5 := cmd.extractLsb' 0 5

/-- `cmd[7:5]` (R30). -/
def rmField (cmd : Byte) : BitVec 3 := cmd.extractLsb' 5 3

/-- The sign bit of an SE word, bit 31 (R33). -/
def seSign (b : Word) : Bool := b.getLsbD 31

/-- The exponent field of an SE word, bits 15:0 (R33). -/
def seExp (b : Word) : BitVec 16 := b.extractLsb' 0 16

/-- The SE word with the given sign, class code and exponent field, bits 30:19 zero (R33). -/
def seWord (sign : Bool) (cls : BitVec 3) (e : BitVec 16) : Word :=
  BitVec.ofBool sign ++ (0#12) ++ cls ++ e

/-- `legal(cmd)` of R35, decided from the command byte alone; `ext` is the parameter `RM_EXT`. -/
def legal (ext : Bool) (cmd : Byte) : Bool :=
  let op := (opField cmd).toNat
  let rm := (rmField cmd).toNat
  if op ∈ [0x01, 0x02, 0x03, 0x04, 0x05, 0x08, 0x0C, 0x10, 0x11, 0x12, 0x13, 0x14, 0x15, 0x16] then
    if op ∈ [0x03, 0x04, 0x05, 0x08, 0x0C] then
      decide (rm = 0) || (ext && decide (rm ≤ 4))
    else
      decide (rm = 0)
  else
    false

/-- The rounding mode a legal `rm` field names (R32). -/
def decodeRm (ext : Bool) (rm : BitVec 3) : Option Rm :=
  match rm.toNat with
  | 0 => some .rne
  | 1 => if ext then some .rtz else none
  | 2 => if ext then some .rdn else none
  | 3 => if ext then some .rup else none
  | 4 => if ext then some .rmm else none
  | _ => none

/-- A command that does not round must carry `rm = 0b000` (R32). -/
def plainForm (rm : BitVec 3) (i : Instr) : Decoded :=
  if rm = 0#3 then .instr i else .rejected (.illegalMode rm)

/-- A command that rounds carries a legal rounding mode (R32). -/
def roundingForm (ext : Bool) (rm : BitVec 3) (f : Rm → Instr) : Decoded :=
  match decodeRm ext rm with
  | some m => .instr (f m)
  | none => .rejected (.illegalMode rm)

/-- The instruction that `op` and `rm` select, on operand words `a` and `b` (R31, R33). -/
def decodeFields (ext : Bool) (op : BitVec 5) (rm : BitVec 3) (a b : Word) : Decoded :=
  match op.toNat with
  | 0x01 => plainForm rm (.classify a)
  | 0x02 => plainForm rm (.decomp a)
  | 0x03 => roundingForm ext rm (fun m => .compose m a (seSign b) (seExp b))
  | 0x04 => roundingForm ext rm (fun m => .add m a b)
  | 0x05 => roundingForm ext rm (fun m => .sub m a b)
  | 0x08 => roundingForm ext rm (fun m => .mul m a b)
  | 0x0C => roundingForm ext rm (fun m => .div m a b)
  | 0x10 => plainForm rm (.cmp a b)
  | 0x11 => plainForm rm (.eq a b)
  | 0x12 => plainForm rm (.ne a b)
  | 0x13 => plainForm rm (.lt a b)
  | 0x14 => plainForm rm (.le a b)
  | 0x15 => plainForm rm (.gt a b)
  | 0x16 => plainForm rm (.ge a b)
  | _ => .rejected (.reservedOp op)

/-- Decode a command under a value of the parameter `RM_EXT`. -/
def decodeWith (ext : Bool) (c : Command) : Decoded :=
  decodeFields ext (opField c.cmd) (rmField c.cmd) c.a c.b

/-- Decode a command in this hardware (`RM_EXT = false`). -/
def decode (c : Command) : Decoded := decodeWith Config.rmExt c

/-- The `rm` field of a rounding mode (R32). -/
def Rm.code : Rm → BitVec 3
  | .rne => 0b000#3
  | .rtz => 0b001#3
  | .rdn => 0b010#3
  | .rup => 0b011#3
  | .rmm => 0b100#3

/-- The command byte of an `rm` field and an `op` field: `(rm << 5) | op` (R30, R36). -/
def cmdByte (rm : BitVec 3) (op : BitVec 5) : Byte := rm ++ op

/-- The command of an instruction (R30 to R33). Ignored bits are written as zero, as R36 has the host drive
`b = 0` for format F1. -/
def encode : Instr → Command
  | .classify a => ⟨cmdByte 0#3 0x01#5, a, 0#32⟩
  | .decomp a => ⟨cmdByte 0#3 0x02#5, a, 0#32⟩
  | .compose rm m sign e => ⟨cmdByte rm.code 0x03#5, m, seWord sign 0#3 e⟩
  | .add rm a b => ⟨cmdByte rm.code 0x04#5, a, b⟩
  | .sub rm a b => ⟨cmdByte rm.code 0x05#5, a, b⟩
  | .mul rm a b => ⟨cmdByte rm.code 0x08#5, a, b⟩
  | .div rm a b => ⟨cmdByte rm.code 0x0C#5, a, b⟩
  | .cmp a b => ⟨cmdByte 0#3 0x10#5, a, b⟩
  | .eq a b => ⟨cmdByte 0#3 0x11#5, a, b⟩
  | .ne a b => ⟨cmdByte 0#3 0x12#5, a, b⟩
  | .lt a b => ⟨cmdByte 0#3 0x13#5, a, b⟩
  | .le a b => ⟨cmdByte 0#3 0x14#5, a, b⟩
  | .gt a b => ⟨cmdByte 0#3 0x15#5, a, b⟩
  | .ge a b => ⟨cmdByte 0#3 0x16#5, a, b⟩

/-- The command whose bits, counted from bit 0 of the command byte, are the low `nbits` bits of `w`: the command
byte in bits 7:0, then operand word `a` in bits 39:8 and `b` in bits 71:40, and zero above `nbits`
(notes/assumptions/6.md). -/
def commandOfBits (nbits w : Nat) : Command :=
  let v := w % 2 ^ nbits
  ⟨BitVec.ofNat 8 v, BitVec.ofNat 32 (v >>> 8), BitVec.ofNat 32 (v >>> 40)⟩

/-- The instruction the decoder reads from a row of spec/opcode_table.json. -/
def decodeTableWord (nbits w : Nat) : Option Instr :=
  match decode (commandOfBits nbits w) with
  | .instr i => some i
  | .rejected _ => none

end Sys2Proof
end

