-- ==== Sys2Proof/Machine/Operands.lean ====
section
/-! DEFINITION. The 32-bit floating-point format and the front half of `fp_bit_codec`: the fields of a pattern,
`classify`, `unpack` and `normalise` (spec/40_numerics_common.md R38 to R42), and the operand and result words
that are assembled from bits (spec/30_encoding.md R33, R34). Numbers are mathematical integers, as R49 has it:
nothing wraps. -/

namespace Sys2Proof.Machine

/-- The sign bit `x[31]` (R38). -/
def signBit (x : Word) : Bool := x.getLsbD 31

/-- The biased exponent field `E = x[30:23]` (R38). -/
def expField (x : Word) : BitVec 8 := x.extractLsb' 23 8

/-- The mantissa field `F = x[22:0]` (R38). -/
def fracField (x : Word) : BitVec 23 := x.extractLsb' 0 23

/-- The magnitude `x[30:0]` as a 31-bit unsigned integer (spec/45_comparator.md R63). -/
def magField (x : Word) : BitVec 31 := x.extractLsb' 0 31

/-- The pattern `{s, E[7:0], F[22:0]}` (R38, R47). -/
def pack (s : Bool) (E F : Nat) : Word := BitVec.ofBool s ++ BitVec.ofNat 8 E ++ BitVec.ofNat 23 F

/-- `{s, 31 zero bits}`: the zero of sign `s`. -/
def packZero (s : Bool) : Word := pack s 0 0

/-- `{s, 0xFF, 0}`: the infinity of sign `s`. -/
def packInf (s : Bool) : Word := pack s 0xFF 0

/-- The five classes of R40. -/
inductive FpClass where
  /-- `E = 0`, `F = 0`. -/
  | zero
  /-- `E = 0`, `F ≠ 0`. -/
  | subnormal
  /-- `1 ≤ E ≤ 254`. -/
  | normal
  /-- `E = 255`, `F = 0`. -/
  | infinity
  /-- `E = 255`, `F ≠ 0`. -/
  | nan
deriving DecidableEq, Repr

/-- The 3-bit class codes of R40. -/
def FpClass.code : FpClass → BitVec 3
  | .zero => 0#3
  | .subnormal => 1#3
  | .normal => 2#3
  | .infinity => 3#3
  | .nan => 4#3

/-- `classify(x)` (R40). -/
def classify (x : Word) : FpClass :=
  if expField x = 0#8 then
    if fracField x = 0#23 then .zero else .subnormal
  else if expField x = 255#8 then
    if fracField x = 0#23 then .infinity else .nan
  else
    .normal

/-- What `unpack` returns (R41): class, sign, unbiased exponent and significand. -/
structure Unpacked where
  /-- The class. -/
  cls : FpClass
  /-- The sign bit. -/
  sign : Bool
  /-- The decomposed exponent, in -126 .. 128. -/
  e : Int
  /-- The decomposed mantissa, below `2^24`. -/
  m : Nat
deriving DecidableEq, Repr

/-- `unpack(x)` (R41): subnormals and zeros have exponent -126 and no implicit bit; every other pattern has
exponent `E - 127` and bit 23 set. -/
def unpack (x : Word) : Unpacked :=
  if expField x = 0#8 then
    ⟨classify x, signBit x, -126, (fracField x).toNat⟩
  else
    ⟨classify x, signBit x, ((expField x).toNat : Int) - 127, 2 ^ 23 + (fracField x).toNat⟩

/-- `bitlen(M)`: the least `L` with `M < 2^L` (spec/00_scope.md, Notation). -/
def bitlen (M : Nat) : Nat := if M = 0 then 0 else Nat.log2 M + 1

/-- `bit(M, i)`: bit `i` of `M`, and 0 for `i < 0` (spec/00_scope.md, Notation). -/
def bitAt (M : Nat) (i : Int) : Bool := if i < 0 then false else M.testBit i.toNat

/-- `normalise(e, m)` (R42): shift a subnormal significand up until bit 23 is set, and lower the exponent to
match. -/
def normalise (e : Int) (m : Nat) : Int × Nat :=
  let sh := 24 - bitlen m
  (e - sh, m <<< sh)

/-- `class_word(a)`: `{a[31], 28 zero bits, classify(a)[2:0]}` (spec/41_bit_codec.md R50). -/
def classWord (a : Word) : Word := BitVec.ofBool (signBit a) ++ (0#28) ++ (classify a).code

end Sys2Proof.Machine
end

