-- ==== Sys2Proof/Machine/Rounding.lean ====
section
/-! DEFINITION. The back half of `fp_bit_codec`, shared by `COMPOSE`, `ADD`, `SUB`, `MUL` and `DIV`: the rounding
decision, the result on overflow, the zero of exact cancellation, and normalise, round and pack
(spec/40_numerics_common.md R44 to R47). -/

namespace Sys2Proof.Machine

/-- `round_inc(rm, s, lsb, G, R, S)` (R44): whether the truncated magnitude goes up by one unit in its last
place. -/
def roundInc (rm : Rm) (s lsb g r st : Bool) : Bool :=
  match rm with
  | .rne => g && (r || st || lsb)
  | .rtz => false
  | .rdn => s && (g || r || st)
  | .rup => !s && (g || r || st)
  | .rmm => g

/-- The largest finite pattern of sign `s`: `{s, 0xFE, 23 one bits}` (R45). -/
def packMax (s : Bool) : Word := pack s 0xFE 0x7FFFFF

/-- `overflow(rm, s)` (R45): the result when the rounded magnitude is `2^128` or more. -/
def overflow (rm : Rm) (s : Bool) : Word :=
  match rm with
  | .rne => packInf s
  | .rmm => packInf s
  | .rtz => packMax s
  | .rdn => if s then packInf true else packMax false
  | .rup => if s then packMax true else packInf false

/-- `cancel_zero(rm)` (R46): the zero of exact cancellation. -/
def cancelZero (rm : Rm) : Word :=
  match rm with
  | .rne => packZero false
  | .rtz => packZero false
  | .rup => packZero false
  | .rmm => packZero false
  | .rdn => packZero true

/-- The kept bits of a magnitude and its guard, round and sticky bits (R47). -/
structure Cut where
  /-- The kept bits `K`. -/
  k : Nat
  /-- The guard bit `G`. -/
  g : Bool
  /-- The round bit `R`. -/
  r : Bool
  /-- The sticky bit `S`. -/
  st : Bool
deriving DecidableEq, Repr

/-- Cut `sh` low bits off `M` (R47): nothing is discarded when `sh ≤ 0`; else `G` and `R` are the two bits below
the kept ones and `S` is the OR of the rest and of the incoming sticky bit `st`. -/
def cut (sh : Int) (M : Nat) (st : Bool) : Cut :=
  if sh ≤ 0 then
    ⟨M <<< (-sh).toNat, false, false, false⟩
  else
    ⟨M >>> sh.toNat, bitAt M (sh - 1), bitAt M (sh - 2),
      (decide (3 ≤ sh) && decide (M % 2 ^ (sh - 2).toNat ≠ 0)) || st⟩

/-- The end of `roundPack` (R47): renormalise a carry out of 24 bits, choose the biased exponent, and pack or
overflow. -/
def packRounded (rm : Rm) (s : Bool) (K : Nat) (et : Int) : Word :=
  let K' := if K = 2 ^ 24 then 2 ^ 23 else K
  let et' := if K = 2 ^ 24 then et + 1 else et
  let eb : Int := if K' < 2 ^ 23 then 0 else et' + 127
  if eb ≥ 255 then overflow rm s else pack s eb.toNat K'

/-- `roundPack(rm, s, e, M, st)` (R47): the pattern of sign `s` whose magnitude is `(M + δ) * 2^e` rounded by
`rm`, where `δ = 0` if `st` is 0 and `0 < δ < 1` if it is 1. -/
def roundPack (rm : Rm) (s : Bool) (e : Int) (M : Nat) (st : Bool) : Word :=
  let et := max (e + bitlen M - 1) (-126)
  let c := cut (et - 23 - e) M st
  let K := c.k + (roundInc rm s (c.k.testBit 0) c.g c.r c.st).toNat
  packRounded rm s K et

end Sys2Proof.Machine
end

