-- ==== Sys2Proof/Machine/Adder.lean ====
section
/-! DEFINITION. `fp_adder`: the alignment shifter, the adder core, and the commands `ADD` and `SUB`
(spec/42_adder.md R54 to R57). -/

namespace Sys2Proof.Machine

/-- `shr_jam(X, d)` (R54): shift right and OR every bit shifted out into bit 0. -/
def shrJam (X d : Nat) : Nat :=
  if d = 0 then X
  else if 27 ≤ d then (if X = 0 then 0 else 1)
  else (X >>> d) ||| (if X % 2 ^ d = 0 then 0 else 1)

/-- The finite path of `fadd` (R55) on operands already ordered by magnitude: `x` is the larger or equal one. -/
def addOrdered (rm : Rm) (x y : Unpacked) : Word :=
  let X := x.m <<< 3
  let Y := shrJam (y.m <<< 3) (x.e - y.e).toNat
  let Z := if x.sign = y.sign then X + Y else X - Y
  if Z = 0 then (if x.sign = y.sign then packZero x.sign else cancelZero rm)
  else roundPack rm x.sign (x.e - 26) Z false

/-- `fadd(rm, a, b, neg)` (R55) after both operands are unpacked and the sign of `b` is settled. -/
def addUnpacked (rm : Rm) (a b : Unpacked) : Word :=
  if a.cls = .nan ∨ b.cls = .nan then Config.canonNaN
  else if a.cls = .infinity ∧ b.cls = .infinity then
    (if a.sign = b.sign then packInf a.sign else Config.canonNaN)
  else if a.cls = .infinity then packInf a.sign
  else if b.cls = .infinity then packInf b.sign
  else if a.e > b.e ∨ (a.e = b.e ∧ a.m ≥ b.m) then addOrdered rm a b
  else addOrdered rm b a

/-- Invert the sign of an unpacked operand when `neg` is 1: `sb ^ neg` (R55). -/
def flipSign (neg : Bool) (u : Unpacked) : Unpacked := { u with sign := u.sign ^^ neg }

/-- `fadd(rm, a, b, neg)` (R55): the whole adder; `neg` is 0 for `ADD` and 1 for `SUB`. -/
def fadd (rm : Rm) (a b : Word) (neg : Bool) : Word := addUnpacked rm (unpack a) (flipSign neg (unpack b))

/-- `ADD` (R56). -/
def execAdd (rm : Rm) (a b : Word) (s : State) : Host.Outcome State Fault Refusal := answer (fadd rm a b false) s

/-- `SUB` (R57). -/
def execSub (rm : Rm) (a b : Word) (s : State) : Host.Outcome State Fault Refusal := answer (fadd rm a b true) s

end Sys2Proof.Machine
end

