-- ==== Sys2Proof/Machine/Codec.lean ====
section
/-! DEFINITION. `fp_bit_codec`: the commands `CLASS`, `DECOMP` and `COMPOSE` (spec/41_bit_codec.md R50 to R52). -/

namespace Sys2Proof.Machine

/-- `CLASS` (R50). -/
def execClassify (a : Word) (s : State) : Host.Outcome State Fault Refusal := answer (classWord a) s

/-- The mantissa word of `DECOMP`: `zext_32(m)` (R51). -/
def decompY (a : Word) : Word := BitVec.ofNat 32 (unpack a).m

/-- The SE word of `DECOMP`: `{s, 12 zero bits, c[2:0], (e mod 2^16)[15:0]}` (R51). -/
def decompZ (a : Word) : Word :=
  seWord (unpack a).sign (unpack a).cls.code (BitVec.ofInt 16 (unpack a).e)

/-- `DECOMP` (R51). -/
def execDecomp (a : Word) (s : State) : Host.Outcome State Fault Refusal := answer2 (decompY a) (decompZ a) s

/-- `compose(rm, a, b)` (R52) on the mantissa `m`, the sign and the exponent field of the SE word: the image of
biased exponent 255 is rebuilt as given; a zero mantissa is a signed zero; anything else is rounded. -/
def compose (rm : Rm) (m : Word) (sign : Bool) (ef : BitVec 16) : Word :=
  let e := ef.toInt
  if e = 128 ∧ 0x800000 ≤ m.toNat ∧ m.toNat ≤ 0xFFFFFF then pack sign 0xFF m.toNat
  else if m.toNat = 0 then packZero sign
  else roundPack rm sign (e - 23) m.toNat false

/-- `COMPOSE` (R52). -/
def execCompose (rm : Rm) (m : Word) (sign : Bool) (e : BitVec 16) (s : State) :
    Host.Outcome State Fault Refusal := answer (compose rm m sign e) s

end Sys2Proof.Machine
end

