-- ==== Sys2Proof/Machine/Flags.lean ====
section
/-! DEFINITION. The block keeps no flags and no condition codes (spec/10_state.md R15). What stands in their place
is ordinary response data: the relation of two patterns (spec/45_comparator.md R63), the one-hot bits `lt`, `eq`,
`gt`, `un` that `CMP` returns (R64), and the truth word of the six predicates (R65 to R70). -/

namespace Sys2Proof.Machine

/-- The four relations of R63. -/
inductive Rel where
  /-- `LT`: less than. -/
  | lt
  /-- `EQ`: equal in value. -/
  | eq
  /-- `GT`: greater than. -/
  | gt
  /-- `UN`: unordered, a NaN on at least one side. -/
  | un
deriving DecidableEq, Repr

/-- The codes of R63: `LT = 0`, `EQ = 1`, `GT = 2`, `UN = 3`. -/
def Rel.code : Rel → Nat
  | .lt => 0
  | .eq => 1
  | .gt => 2
  | .un => 3

/-- `rel(a, b)` (R63). -/
def rel (a b : Word) : Rel :=
  if classify a = .nan ∨ classify b = .nan then .un
  else if magField a = 0#31 ∧ magField b = 0#31 then .eq
  else if signBit a ≠ signBit b then (if signBit a = true then .lt else .gt)
  else if magField a = magField b then .eq
  else if signBit a = false then (if magField a < magField b then .lt else .gt)
  else (if magField b < magField a then .lt else .gt)

/-- `1 << rel(a, b)` (R64): bit 0 `lt`, bit 1 `eq`, bit 2 `gt`, bit 3 `un`. -/
def relWord (r : Rel) : Word := 1#32 <<< r.code

/-- The truth word of a predicate: 1 if it holds, 0 if not (R34). -/
def truthWord (p : Bool) : Word := if p then 1#32 else 0#32

end Sys2Proof.Machine
end

