-- ==== Sys2Proof/Machine/Comparator.lean ====
section
/-! DEFINITION. `fp_comparator`: the commands `CMP`, `EQ`, `NE`, `LT`, `LE`, `GT` and `GE`
(spec/45_comparator.md R64 to R70), all from the one relation of R63. -/

namespace Sys2Proof.Machine

/-- `CMP` (R64). -/
def execCmp (a b : Word) (s : State) : Host.Outcome State Fault Refusal := answer (relWord (rel a b)) s

/-- `EQ` (R65). -/
def execEq (a b : Word) (s : State) : Host.Outcome State Fault Refusal :=
  answer (truthWord (decide (rel a b = .eq))) s

/-- `NE` (R66): the complement of `EQ`, so 1 on a NaN (spec/90_conflicts.md C3). -/
def execNe (a b : Word) (s : State) : Host.Outcome State Fault Refusal :=
  answer (truthWord (decide (rel a b ≠ .eq))) s

/-- `LT` (R67). -/
def execLt (a b : Word) (s : State) : Host.Outcome State Fault Refusal :=
  answer (truthWord (decide (rel a b = .lt))) s

/-- `LE` (R68). -/
def execLe (a b : Word) (s : State) : Host.Outcome State Fault Refusal :=
  answer (truthWord (decide (rel a b = .lt ∨ rel a b = .eq))) s

/-- `GT` (R69). -/
def execGt (a b : Word) (s : State) : Host.Outcome State Fault Refusal :=
  answer (truthWord (decide (rel a b = .gt))) s

/-- `GE` (R70). -/
def execGe (a b : Word) (s : State) : Host.Outcome State Fault Refusal :=
  answer (truthWord (decide (rel a b = .gt ∨ rel a b = .eq))) s

end Sys2Proof.Machine
end

