-- ==== Sys2Proof/Machine/Divider.lean ====
section
/-! DEFINITION. `fp_divider`: the command `DIV` (spec/44_divider.md R61). -/

namespace Sys2Proof.Machine

/-- The quotient of two nonzero finite operands (R61): both significands normalised, the dividend shifted left by
26, and a nonzero remainder passed on as the sticky bit. -/
def divFinite (rm : Rm) (s : Bool) (a b : Unpacked) : Word :=
  let na := normalise a.e a.m
  let nb := normalise b.e b.m
  let N := na.2 <<< 26
  roundPack rm s (na.1 - nb.1 - 26) (N / nb.2) (decide (N % nb.2 ≠ 0))

/-- `fdiv(rm, a, b)` (R61) on unpacked operands. -/
def divUnpacked (rm : Rm) (a b : Unpacked) : Word :=
  let s := a.sign ^^ b.sign
  if a.cls = .nan ∨ b.cls = .nan then Config.canonNaN
  else if a.cls = .infinity then
    (if b.cls = .infinity then Config.canonNaN else packInf s)
  else if b.cls = .infinity then packZero s
  else if b.cls = .zero then
    (if a.cls = .zero then Config.canonNaN else packInf s)
  else if a.cls = .zero then packZero s
  else divFinite rm s a b

/-- `fdiv(rm, a, b)` (R61). -/
def fdiv (rm : Rm) (a b : Word) : Word := divUnpacked rm (unpack a) (unpack b)

/-- `DIV` (R61). -/
def execDiv (rm : Rm) (a b : Word) (s : State) : Host.Outcome State Fault Refusal := answer (fdiv rm a b) s

end Sys2Proof.Machine
end

