-- ==== Sys2Proof/Machine/Multiplier.lean ====
section
/-! DEFINITION. `fp_multiplier`: the command `MUL` (spec/43_multiplier.md R59). -/

namespace Sys2Proof.Machine

/-- `fmul(rm, a, b)` (R59) on unpacked operands; `s` is the exclusive or of the signs. -/
def mulUnpacked (rm : Rm) (a b : Unpacked) : Word :=
  let s := a.sign ^^ b.sign
  if a.cls = .nan ∨ b.cls = .nan then Config.canonNaN
  else if a.cls = .infinity ∨ b.cls = .infinity then
    (if a.cls = .zero ∨ b.cls = .zero then Config.canonNaN else packInf s)
  else if a.cls = .zero ∨ b.cls = .zero then packZero s
  else roundPack rm s (a.e + b.e - 46) (a.m * b.m) false

/-- `fmul(rm, a, b)` (R59). -/
def fmul (rm : Rm) (a b : Word) : Word := mulUnpacked rm (unpack a) (unpack b)

/-- `MUL` (R59). -/
def execMul (rm : Rm) (a b : Word) (s : State) : Host.Outcome State Fault Refusal := answer (fmul rm a b) s

end Sys2Proof.Machine
end

