-- ==== Sys2Proof/Machine/Dispatch.lean ====
section
/-! DEFINITION. What each instruction does, one arm per constructor (spec/30_encoding.md R37). -/

namespace Sys2Proof.Machine

def exec (i : Instr) (s : State) : Host.Outcome State Fault Refusal :=
  match i with
  | .classify a => Sys2Proof.Machine.execClassify a s
  | .decomp a => Sys2Proof.Machine.execDecomp a s
  | .compose rm m sign e => Sys2Proof.Machine.execCompose rm m sign e s
  | .add rm a b => Sys2Proof.Machine.execAdd rm a b s
  | .sub rm a b => Sys2Proof.Machine.execSub rm a b s
  | .mul rm a b => Sys2Proof.Machine.execMul rm a b s
  | .div rm a b => Sys2Proof.Machine.execDiv rm a b s
  | .cmp a b => Sys2Proof.Machine.execCmp a b s
  | .eq a b => Sys2Proof.Machine.execEq a b s
  | .ne a b => Sys2Proof.Machine.execNe a b s
  | .lt a b => Sys2Proof.Machine.execLt a b s
  | .le a b => Sys2Proof.Machine.execLe a b s
  | .gt a b => Sys2Proof.Machine.execGt a b s
  | .ge a b => Sys2Proof.Machine.execGe a b s

end Sys2Proof.Machine
end

