-- ==== Sys2Proof/Machine/Handshake.lean ====
section
/-! DEFINITION. One rising edge of `clk`: which of ACCEPT, COMPLETE, DELIVER and reset happens, and the command
that COMPLETE runs (spec/10_state.md R10 to R12, spec/70_reset_and_hazards.md R79, spec/60_exceptions.md R75). -/

namespace Sys2Proof.Machine

/-- The command that COMPLETE runs (R11, R37): a legal one has its instruction's meaning, an illegal byte is
answered `respond(0, 0, 1)` (R35, R73). -/
def runCommand (ext : Bool) (c : Command) (s : State) : Host.Outcome State Fault Refusal :=
  match decodeWith ext c with
  | .instr i => exec i s
  | .rejected _ => .next (respondIllegal s)

/-- One rising edge of `clk`, with `ext` the parameter `RM_EXT`. Reset wins over every other step (R75, R79);
otherwise the phase says which step is possible: ACCEPT in `IDLE` (R10), COMPLETE in `BUSY` once the latency has
passed (R11), DELIVER in `DONE` (R12). -/
def clockEdge (ext : Bool) (s : State) : Host.Outcome State Fault Refusal :=
  if (pins s).rst then .next (resetBlock (tick s))
  else
    match s.phase with
    | .idle => .next (if (pins s).reqValid then accept (nextEdge s) (tick s) else tick s)
    | .busy c => if s.slack = 0 then runCommand ext c (tick s) else .next (wait (tick s))
    | .done _ => .next (if (pins s).rspReady then deliver (tick s) else tick s)

/-- Input lines that offer nothing and take nothing, with `rst = 0`. -/
def quietPins : Pins := ⟨false, false, 0#8, 0#32, 0#32, false⟩

/-- The schedule with `rst = 0` at the coming edge and everything else as it was. -/
def withoutReset (es : List Edge) : List Edge :=
  match es with
  | [] => [⟨quietPins, 0⟩]
  | e :: es => { e with pins := { e.pins with rst := false } } :: es

/-- The state in which command `c` has been accepted, its latency has passed, and the coming edge takes COMPLETE
(notes/assumptions/5.md). -/
def loadCommand (c : Command) (s : State) : State :=
  { s with phase := .busy c, slack := 0, schedule := withoutReset s.schedule }

end Sys2Proof.Machine
end

