-- ==== Sys2Proof/Machine/Step.lean ====
section
/-! DEFINITION. One step of the machine is one rising edge of `clk` in this hardware (`RM_EXT = false`,
spec/00_scope.md R4), and how the host of the pipeline places a command where the next step runs it. -/

namespace Sys2Proof.Machine

/-- One rising edge of `clk`. -/
def step (s : State) : Host.Outcome State Fault Refusal := clockEdge Config.rmExt s

/-- The command of the opcode table's word `w` placed so that the very next step runs it: accepted, its latency
passed, and no reset at the coming edge (notes/assumptions/5.md). -/
def State.withFetchWord (s : State) (nbits w : Nat) : State := loadCommand (commandOfBits nbits w) s

end Sys2Proof.Machine
end

