-- ==== Sys2Proof/Safety.lean ====
section
/-! DEFINITION. The terms that claims about the block use, written from the rules and not from the model's own
datapath: the value of a pattern (spec/40_numerics_common.md R39), correct rounding (R48), the result tables of
the adder, the multiplier, the divider and `COMPOSE`, the response that R37 gives each command, what a lawful
response looks like (R34), and what the host sees on the ports (R9, R27). -/

namespace Sys2Proof.Machine

/-! ### Patterns and their values (R38, R39) -/

/-- A zero: `E = 0`, `F = 0`. -/
abbrev IsZero (x : Word) : Prop := expField x = 0#8 ∧ fracField x = 0#23

/-- A subnormal: `E = 0`, `F ≠ 0`. -/
abbrev IsSubnormal (x : Word) : Prop := expField x = 0#8 ∧ fracField x ≠ 0#23

/-- A normal number: `1 ≤ E ≤ 254`. -/
abbrev IsNormal (x : Word) : Prop := expField x ≠ 0#8 ∧ expField x ≠ 255#8

/-- An infinity: `E = 255`, `F = 0`. -/
abbrev IsInf (x : Word) : Prop := expField x = 255#8 ∧ fracField x = 0#23

/-- A NaN: `E = 255`, `F ≠ 0`. -/
abbrev IsNaN (x : Word) : Prop := expField x = 255#8 ∧ fracField x ≠ 0#23

/-- Zero, subnormal or normal. -/
abbrev IsFinite (x : Word) : Prop := expField x ≠ 255#8

/-- The magnitude of a finite pattern (R39): `F * 2^(-149)` when `E = 0`, else `(2^23 + F) * 2^(E - 127 - 23)`. -/
def magnitude (x : Word) : ℚ :=
  if expField x = 0#8 then ((fracField x).toNat : ℚ) * 2 ^ (-149 : ℤ)
  else (2 ^ 23 + ((fracField x).toNat : ℚ)) * 2 ^ (((expField x).toNat : ℤ) - 127 - 23)

/-- `val(x)` of a finite pattern (R39), an exact rational. -/
def val (x : Word) : ℚ := if signBit x then -magnitude x else magnitude x

/-- The value of a pattern that is no NaN, in the rationals with two infinities (R63). -/
def extVal (x : Word) : WithBot (WithTop ℚ) :=
  if IsInf x then (if signBit x then ⊥ else ((⊤ : WithTop ℚ) : WithBot (WithTop ℚ)))
  else ((val x : WithTop ℚ) : WithBot (WithTop ℚ))

/-- The zero of sign `s`, as R39 writes it. -/
def zeroOf (s : Bool) : Word := if s then 0x80000000#32 else 0x00000000#32

/-- The infinity of sign `s`, as R39 writes it. -/
def infOf (s : Bool) : Word := if s then 0xFF800000#32 else 0x7F800000#32

/-! ### Correct rounding (R48) -/

/-- The upper of the two neighbours is chosen (R48): the magnitude is `(k + f)` quanta with `0 ≤ f < 1`. -/
def roundsUp (rm : Rm) (s : Bool) (k : ℕ) (f : ℚ) : Bool :=
  match rm with
  | .rne => decide (1 / 2 < f) || (decide (f = 1 / 2) && decide (k % 2 = 1))
  | .rtz => false
  | .rdn => s && decide (0 < f)
  | .rup => !s && decide (0 < f)
  | .rmm => decide (1 / 2 ≤ f)

/-- The result when the chosen magnitude is `2^128` or more, as R45 writes the patterns. -/
def overflowPattern (rm : Rm) (s : Bool) : Word :=
  match rm, s with
  | .rne, false => 0x7F800000#32
  | .rne, true => 0xFF800000#32
  | .rmm, false => 0x7F800000#32
  | .rmm, true => 0xFF800000#32
  | .rtz, false => 0x7F7FFFFF#32
  | .rtz, true => 0xFF7FFFFF#32
  | .rdn, false => 0x7F7FFFFF#32
  | .rdn, true => 0xFF800000#32
  | .rup, false => 0x7F800000#32
  | .rup, true => 0xFF7FFFFF#32

/-- `y` is the pattern of sign `s` and magnitude `w`, or the overflow result when `w` is `2^128` or more. -/
def PatternOf (rm : Rm) (s : Bool) (w : ℚ) (y : Word) : Prop :=
  (2 ^ 128 ≤ w → y = overflowPattern rm s) ∧
  (w < 2 ^ 128 → IsFinite y ∧ signBit y = s ∧ magnitude y = w)

/-- `y` is the magnitude `V > 0` with sign `s`, rounded by `rm` (R48): `V` lies in the binade `[2^E, 2^(E+1))`, the
quantum is `q = 2^(max(E, -126) - 23)`, `V = (k + f) * q`, and the magnitude chosen is `k * q` or `(k + 1) * q`. -/
def RoundsTo (rm : Rm) (s : Bool) (V : ℚ) (y : Word) : Prop :=
  ∃ (E : ℤ) (k : ℕ) (f : ℚ),
    (2 : ℚ) ^ E ≤ V ∧ V < (2 : ℚ) ^ (E + 1) ∧ 0 ≤ f ∧ f < 1 ∧
    V = ((k : ℚ) + f) * (2 : ℚ) ^ (max E (-126) - 23) ∧
    PatternOf rm s (((if roundsUp rm s k f then k + 1 else k : ℕ) : ℚ) * (2 : ℚ) ^ (max E (-126) - 23)) y

/-! ### The result tables -/

/-- The result table of `ADD` (spec/42_adder.md R56), first line that applies. -/
def AddTable (rm : Rm) (a b y : Word) : Prop :=
  if IsNaN a ∨ IsNaN b then y = Config.canonNaN
  else if IsInf a ∧ IsInf b then y = if signBit a = signBit b then a else Config.canonNaN
  else if IsInf a then y = a
  else if IsInf b then y = b
  else if IsZero a ∧ IsZero b then y = if signBit a = signBit b then a else zeroOf (decide (rm = .rdn))
  else if IsZero b then y = a
  else if IsZero a then y = b
  else if val a + val b = 0 then y = zeroOf (decide (rm = .rdn))
  else RoundsTo rm (decide (val a + val b < 0)) |val a + val b| y

/-- The result table of `MUL` (spec/43_multiplier.md R59), first line that applies. -/
def MulTable (rm : Rm) (a b y : Word) : Prop :=
  let s := signBit a ^^ signBit b
  if IsNaN a ∨ IsNaN b then y = Config.canonNaN
  else if (IsInf a ∧ IsZero b) ∨ (IsZero a ∧ IsInf b) then y = Config.canonNaN
  else if IsInf a ∨ IsInf b then y = infOf s
  else if IsZero a ∨ IsZero b then y = zeroOf s
  else RoundsTo rm s |val a * val b| y

/-- The result table of `DIV` (spec/44_divider.md R61), first line that applies. -/
def DivTable (rm : Rm) (a b y : Word) : Prop :=
  let s := signBit a ^^ signBit b
  if IsNaN a ∨ IsNaN b then y = Config.canonNaN
  else if (IsInf a ∧ IsInf b) ∨ (IsZero a ∧ IsZero b) then y = Config.canonNaN
  else if IsInf a ∨ IsZero b then y = infOf s
  else if IsInf b ∨ IsZero a then y = zeroOf s
  else RoundsTo rm s |val a / val b| y

/-- The result of `COMPOSE` (spec/41_bit_codec.md R52) on the mantissa, the sign and the exponent `e`. -/
def ComposeTable (rm : Rm) (m : Word) (sign : Bool) (e : ℤ) (y : Word) : Prop :=
  if e = 128 ∧ 0x800000 ≤ m.toNat ∧ m.toNat ≤ 0xFFFFFF then
    signBit y = sign ∧ expField y = 255#8 ∧ fracField y = m.extractLsb' 0 23
  else if m = 0#32 then y = zeroOf sign
  else RoundsTo rm sign ((m.toNat : ℚ) * (2 : ℚ) ^ (e - 23)) y

/-! ### Commands and responses (R34, R35, R37) -/

/-- The legal command bytes as R35 lists them: 14 of them, and 34 when `RM_EXT` is true. -/
def legalBytes (ext : Bool) : List Byte :=
  [0x01#8, 0x02#8, 0x03#8, 0x04#8, 0x05#8, 0x08#8, 0x0C#8, 0x10#8, 0x11#8, 0x12#8, 0x13#8, 0x14#8, 0x15#8, 0x16#8] ++
  (if ext then
    [0x23#8, 0x43#8, 0x63#8, 0x83#8, 0x24#8, 0x44#8, 0x64#8, 0x84#8, 0x25#8, 0x45#8, 0x65#8, 0x85#8,
      0x28#8, 0x48#8, 0x68#8, 0x88#8, 0x2C#8, 0x4C#8, 0x6C#8, 0x8C#8]
  else [])

/-- The rounding mode named by the `rm` field of a legal byte (R32). -/
def modeOf (cmd : Byte) : Rm :=
  match (cmd >>> 5).toNat with
  | 0 => .rne
  | 1 => .rtz
  | 2 => .rdn
  | 3 => .rup
  | _ => .rmm

/-- `exec(cmd, a, b)` as R37 writes it: `legal` first, then one case for each value of `op`. -/
def respondTo (ext : Bool) (c : Command) : Response :=
  if c.cmd ∉ legalBytes ext then ⟨0#32, 0#32, true⟩
  else
    match (c.cmd % 32#8).toNat with
    | 0x01 => ⟨classWord c.a, 0#32, false⟩
    | 0x02 => ⟨decompY c.a, decompZ c.a, false⟩
    | 0x03 => ⟨compose (modeOf c.cmd) c.a (c.b.getLsbD 31) (c.b.extractLsb' 0 16), 0#32, false⟩
    | 0x04 => ⟨fadd (modeOf c.cmd) c.a c.b false, 0#32, false⟩
    | 0x05 => ⟨fadd (modeOf c.cmd) c.a c.b true, 0#32, false⟩
    | 0x08 => ⟨fmul (modeOf c.cmd) c.a c.b, 0#32, false⟩
    | 0x0C => ⟨fdiv (modeOf c.cmd) c.a c.b, 0#32, false⟩
    | 0x10 => ⟨relWord (rel c.a c.b), 0#32, false⟩
    | 0x11 => ⟨if rel c.a c.b = .eq then 1#32 else 0#32, 0#32, false⟩
    | 0x12 => ⟨if rel c.a c.b = .eq then 0#32 else 1#32, 0#32, false⟩
    | 0x13 => ⟨if rel c.a c.b = .lt then 1#32 else 0#32, 0#32, false⟩
    | 0x14 => ⟨if rel c.a c.b = .lt ∨ rel c.a c.b = .eq then 1#32 else 0#32, 0#32, false⟩
    | 0x15 => ⟨if rel c.a c.b = .gt then 1#32 else 0#32, 0#32, false⟩
    | 0x16 => ⟨if rel c.a c.b = .gt ∨ rel c.a c.b = .eq then 1#32 else 0#32, 0#32, false⟩
    | _ => ⟨0#32, 0#32, true⟩

/-- What R34, R40 and R51 promise of every response the block puts on the port: an error response is all zeros,
and a nonzero `z` is an SE word that `DECOMP` writes (bits 30:19 zero, a class code of 0 to 4, an exponent in
-126 .. 128) beside a 24-bit mantissa. -/
abbrev Response.Lawful (r : Response) : Prop :=
  (r.err = true → r.y = 0#32 ∧ r.z = 0#32) ∧
  (r.z ≠ 0#32 →
    r.y.toNat < 2 ^ 24 ∧ r.z.extractLsb' 19 12 = 0#12 ∧ (r.z.extractLsb' 16 3).toNat ≤ 4 ∧
    -126 ≤ (r.z.extractLsb' 0 16).toInt ∧ (r.z.extractLsb' 0 16).toInt ≤ 128)

/-- The invariant of the block: an offered response is lawful, and the model's latency countdown is at rest
outside `BUSY`. -/
def State.Inv (s : State) : Prop :=
  match s.phase with
  | .idle => s.slack = 0
  | .busy _ => True
  | .done r => s.slack = 0 ∧ r.Lawful

/-! ### What the host sees on the ports (R9, R27) -/

/-- What happens on the ports at a clock edge. -/
inductive Event where
  /-- `rst = 1` (R79). -/
  | reset
  /-- `req_valid = req_ready = 1`: the host's command is accepted (R10, R81). -/
  | accepted (c : Command)
  /-- `rsp_valid = rsp_ready = 1`: the host receives the response (R12, R81). -/
  | delivered (r : Response)
  /-- No transfer. -/
  | nothing
deriving DecidableEq, Repr

/-- The event of the coming clock edge, read from the port lines alone. -/
def eventAt (s : State) : Event :=
  if (pins s).rst then .reset
  else if reqReady s && (pins s).reqValid then .accepted (offered (pins s))
  else
    match rspLines s with
    | some r => if (pins s).rspReady then .delivered r else .nothing
    | none => .nothing

/-- The events of the next `n` clock edges. -/
def events : ℕ → State → List Event
  | 0, _ => []
  | n + 1, s =>
    match step s with
    | .next t => eventAt s :: events n t
    | .fault _ => []
    | .refused _ => []

/-- The commands accepted in a list of events, in order. -/
def acceptedIn (es : List Event) : List Command :=
  es.filterMap fun e => match e with
    | .accepted c => some c
    | _ => none

/-- The responses delivered in a list of events, in order. -/
def deliveredIn (es : List Event) : List Response :=
  es.filterMap fun e => match e with
    | .delivered r => some r
    | _ => none

/-- No reset at the next `n` clock edges. -/
abbrev ResetFree (n : ℕ) (s : State) : Prop := Event.reset ∉ events n s

end Sys2Proof.Machine
end

