-- ==== Sys2Proof/Certificates/Slice0/Obligations.lean ====
section
/-! DEFINITION. The statements about the block, for the provers. Each docstring names the rule of spec/ it
formalises. Results are stated through Sys2Proof/Safety.lean's own terms (values, correct rounding, result tables),
not through the model's datapath. Every statement about the machine holds for every value of the free value
`Config.freeEdge` (notes/assumptions/2.md, 3.md). -/

open Sys2Proof Sys2Proof.Machine

/-! ### Reset, the three steps, and the ports (R5, R10 to R12, R20, R27, R79, R83) -/

/-- R20. Right after reset the phase is `IDLE`, no response is offered, and a command can be accepted unless `rst`
is still 1. -/
def Obligations.ResetLeavesTheBlockIdle : Prop :=
  State.reset.phase = .idle ∧ rspValid State.reset = false ∧ rspLines State.reset = none ∧
  reqReady State.reset = !(pins State.reset).rst

/-- R79. At an edge with `rst = 1` nothing is accepted and nothing delivered, the block is `IDLE` afterwards and
offers no response; and nothing of the block's past survives: two states that differ in phase and latency step to
the same state. The clauses on `schedule` and `edges` (notes/assumptions/2.md) and the exact forgetting of `slack`
(notes/assumptions/3.md) are the model's own account of the outside world and of the open latency, not R79's. -/
def Obligations.ResetEdgeDiscardsAndForgets : Prop :=
  ∀ s : State, (pins s).rst = true →
    reqReady s = false ∧ (∀ c, eventAt s ≠ .accepted c) ∧ (∀ r, eventAt s ≠ .delivered r) ∧
    (∃ t, step s = .next t ∧ t.phase = .idle ∧ rspValid t = false ∧
      t.schedule = s.schedule.tail ∧ t.edges = s.edges + 1) ∧
    (∀ (p : Phase) (k : Nat), step { s with phase := p, slack := k } = step s)

/-- R10. In `IDLE` with `rst = 0` an offered command is accepted, its three words sampled together, whatever they
are; without an offer the block stays `IDLE`; and in any other phase the request lines have no effect. -/
def Obligations.AcceptSamplesTheOfferedCommand : Prop :=
  ∀ s : State,
    (s.phase = .idle → (pins s).rst = false → (pins s).reqValid = true →
      eventAt s = .accepted ⟨(pins s).reqCmd, (pins s).reqA, (pins s).reqB⟩ ∧
      ∃ t, step s = .next t ∧ t.phase = .busy ⟨(pins s).reqCmd, (pins s).reqA, (pins s).reqB⟩) ∧
    (s.phase = .idle → (pins s).rst = false → (pins s).reqValid = false →
      ∃ t, step s = .next t ∧ t.phase = .idle) ∧
    (∀ (e : Edge) (es : List Edge) (v : Bool) (c : Byte) (a b : Word), s.schedule = e :: es → s.phase ≠ .idle →
      step { s with schedule :=
        { e with pins := { e.pins with reqValid := v, reqCmd := c, reqA := a, reqB := b } } :: es } = step s)

/-- R11, through the model's account of the open latency (notes/assumptions/3.md, a choice of the model): a command
accepted at an edge whose draw is `k` stays in `BUSY` for `k` further edges and is answered by the next one, with
the response that R37 gives it, unless a reset intervenes. -/
def Obligations.CompleteComesAfterTheLatency : Prop :=
  (∀ (s : State) (c : Command), eventAt s = .accepted c →
    ∃ t, step s = .next t ∧ t.phase = .busy c ∧ t.slack = (nextEdge s).slack) ∧
  (∀ (s : State) (c : Command), s.phase = .busy c → ResetFree (s.slack + 1) s →
    (∀ k, k ≤ s.slack → ∃ t : State, Host.Core.run Sys2Proof.core k s = .next t ∧ t.phase = .busy c) ∧
    ∃ t : State, Host.Core.run Sys2Proof.core (s.slack + 1) s = .next t ∧
      t.phase = .done (respondTo Config.rmExt c))

/-- R12. In `DONE` with `rst = 0` the response is on the port; the host takes it at an edge with `rsp_ready = 1` and
the block is `IDLE`; while `rsp_ready = 0` the phase and the three response values do not change. -/
def Obligations.DeliverOrHoldTheResponse : Prop :=
  ∀ (s : State) (r : Response), s.phase = .done r → (pins s).rst = false →
    rspLines s = some r ∧
    ((pins s).rspReady = true → eventAt s = .delivered r ∧ ∃ t, step s = .next t ∧ t.phase = .idle) ∧
    ((pins s).rspReady = false → ∃ t, step s = .next t ∧ t.phase = .done r ∧ rspLines t = some r)

/-- A step runs the decoded instruction: at the edge that takes COMPLETE, a command that decodes to `i` makes the
step `exec i` on the state whose clock has passed that edge (`slack`, `schedule` and `edges` are the model's account,
notes/assumptions/2.md, 3.md). -/
def Obligations.StepRunsTheDecodedInstruction : Prop :=
  ∀ (s : State) (c : Command) (i : Instr),
    s.phase = .busy c → s.slack = 0 → (pins s).rst = false → decode c = .instr i →
    i.wellFormed = true ∧ step s = exec i { s with schedule := s.schedule.tail, edges := s.edges + 1 }

/-- R72. No step, of any state and with either value of `RM_EXT`, faults or is refused. -/
def Obligations.EveryStepAnswersNext : Prop :=
  ∀ (ext : Bool) (s : State), ∃ t, clockEdge ext s = .next t

/-- R5. The response depends on the command alone: two states that complete the same command offer the same
response, whatever came before and whatever the host drives. -/
def Obligations.ResponseDependsOnTheCommandOnly : Prop :=
  ∀ (s s' : State) (c : Command), s.phase = .busy c → s'.phase = .busy c → s.slack = 0 → s'.slack = 0 →
    (pins s).rst = false → (pins s').rst = false →
    ∃ (t t' : State) (r : Response), step s = .next t ∧ step s' = .next t' ∧ t.phase = .done r ∧ t'.phase = .done r

/-- R83, its first two derived points: unless a reset intervenes, no command is accepted at either of the two edges
that follow an ACCEPT, and the response is not yet offered at the first of them. -/
def Obligations.AcceptsAreThreeEdgesApart : Prop :=
  ∀ (s t u : State) (c : Command), eventAt s = .accepted c → step s = .next t → eventAt t ≠ .reset →
    step t = .next u →
    rspValid t = false ∧ (∀ c', eventAt t ≠ .accepted c') ∧ (∀ c', eventAt u ≠ .accepted c')

/-- R27. From any `IDLE` state and over any number of edges without a reset: the responses the host has received are
those of the commands it had accepted, in order, mapped through R37's `exec`; and at most one command is without its
response, so a command is answered before the next is accepted. -/
def Obligations.TranscriptIsTheCommandsMapped : Prop :=
  ∀ (n : ℕ) (s : State), s.phase = .idle → ResetFree n s →
    deliveredIn (events n s) =
      ((acceptedIn (events n s)).map (respondTo Config.rmExt)).take (deliveredIn (events n s)).length ∧
    (deliveredIn (events n s)).length ≤ (acceptedIn (events n s)).length ∧
    (acceptedIn (events n s)).length ≤ (deliveredIn (events n s)).length + 1

/-- The invariant holds at reset. In the phase `IDLE` (R20) it says that the model's countdown is 0: the countdown is
the model's own field (notes/assumptions/3.md) and 0 at reset is the model's choice (notes/assumptions/4.md). -/
def Obligations.InvariantHoldsAtReset : Prop := State.reset.Inv

/-- Every step from every state that meets the invariant meets it again: an offered response is lawful (R34: an
error response is all zeros; a nonzero `z` is an SE word with zero bits, a class code and an exponent in range), and
the model's countdown, its own field (notes/assumptions/3.md), is at rest outside `BUSY`. -/
def Obligations.EveryStepKeepsTheInvariant : Prop :=
  ∀ s t : State, s.Inv → step s = .next t → t.Inv

/-! ### Encoding and dispatch (R30 to R37) -/

/-- Decoding the encoding of a well-formed instruction gives it back, for all fourteen commands, every operand and
every rounding mode, with either value of `RM_EXT`. -/
def Obligations.DecodeOfEncodeIsTheInstruction : Prop :=
  ∀ (ext : Bool) (i : Instr), i.wellFormedWith ext = true → decodeWith ext (encode i) = .instr i

/-- The other direction: what the decoder gives is well-formed, and encoding it gives back the command but for the
bits that R33 ignores. -/
def Obligations.EncodeOfDecodeIsTheCommand : Prop :=
  ∀ (ext : Bool) (c : Command) (i : Instr), decodeWith ext c = .instr i →
    i.wellFormedWith ext = true ∧ (encode i).cmd = c.cmd ∧ (encode i).a = c.a ∧
    (opField c.cmd = 0x03#5 → seSign (encode i).b = seSign c.b ∧ seExp (encode i).b = seExp c.b) ∧
    (opField c.cmd ∉ [0x01#5, 0x02#5, 0x03#5] → (encode i).b = c.b)

/-- A few commands written out from R31 and what they decode to. -/
def Obligations.WrittenOutCommandsDecode : Prop :=
  decode ⟨0b00000001#8, 0x7F800000#32, 0#32⟩ = .instr (.classify 0x7F800000#32) ∧
  decode ⟨0b00000011#8, 0x00C90FDB#32, 0x80020001#32⟩ = .instr (.compose .rne 0x00C90FDB#32 true 0x0001#16) ∧
  decode ⟨0b00000101#8, 1#32, 2#32⟩ = .instr (.sub .rne 1#32 2#32) ∧
  decode ⟨0b00001000#8, 1#32, 2#32⟩ = .instr (.mul .rne 1#32 2#32) ∧
  decode ⟨0b00001100#8, 1#32, 2#32⟩ = .instr (.div .rne 1#32 2#32) ∧
  decode ⟨0b00010110#8, 1#32, 2#32⟩ = .instr (.ge 1#32 2#32) ∧
  decode ⟨0b00000110#8, 1#32, 2#32⟩ = .rejected (.reservedOp 0b00110#5) ∧
  decode ⟨0b00100100#8, 1#32, 2#32⟩ = .rejected (.illegalMode 0b001#3)

/-- R35. The legal bytes are the 14 listed ones, and with `RM_EXT` the 34; the decoder accepts exactly these; a legal
command is answered with `err = 0`, whatever its operands, and every other byte with `respond(0, 0, 1)`, nothing else
of the state touched. -/
def Obligations.IllegalBytesAreAnsweredInBand : Prop :=
  ∀ (ext : Bool) (c : Command) (s : State),
    (legal ext c.cmd = true ↔ c.cmd ∈ legalBytes ext) ∧
    ((∃ i, decodeWith ext c = .instr i) ↔ c.cmd ∈ legalBytes ext) ∧
    (c.cmd ∈ legalBytes ext →
      ∃ y z, runCommand ext c s = .next { s with phase := .done ⟨y, z, false⟩ }) ∧
    (c.cmd ∉ legalBytes ext → runCommand ext c s = .next { s with phase := .done ⟨0#32, 0#32, true⟩ })

/-- R33, its "ignored" bits: `b` has no effect on `CLASS` and `DECOMP`, and `b[30:16]` none on `COMPOSE`. -/
def Obligations.IgnoredOperandBitsHaveNoEffect : Prop :=
  ∀ (ext : Bool) (cmd : Byte) (a b b' : Word) (s : State),
    (opField cmd = 0x01#5 ∨ opField cmd = 0x02#5 →
      runCommand ext ⟨cmd, a, b⟩ s = runCommand ext ⟨cmd, a, b'⟩ s) ∧
    (opField cmd = 0x03#5 → b.getLsbD 31 = b'.getLsbD 31 → b.extractLsb' 0 16 = b'.extractLsb' 0 16 →
      runCommand ext ⟨cmd, a, b⟩ s = runCommand ext ⟨cmd, a, b'⟩ s)

/-- R37. COMPLETE answers every command, legal or not, with the response of R37's table over the command byte, and
changes nothing but the phase. -/
def Obligations.CommandsAnswerByTheDispatchTable : Prop :=
  ∀ (ext : Bool) (c : Command) (s : State),
    runCommand ext c s = .next { s with phase := .done (respondTo ext c) }

/-- The frame of all fourteen commands: whatever a command does, only the phase changes, to `DONE` with `err = 0`, and
`z` is zero but for `DECOMP` (R11, R15, R34). -/
def Obligations.EveryCommandWritesOnlyThePhase : Prop :=
  ∀ (i : Instr) (s t : State), exec i s = .next t →
    t.slack = s.slack ∧ t.schedule = s.schedule ∧ t.edges = s.edges ∧
    ∃ y z, t.phase = .done ⟨y, z, false⟩ ∧ ((∀ a, i ≠ .decomp a) → z = 0#32)

/-! ### The bit codec (R41, R50 to R53) -/

/-- R50. `CLASS` answers the sign bit, 28 zeros and the class code. -/
def Obligations.ClassReportsSignAndClass : Prop :=
  ∀ (a b : Word) (s : State),
    decode ⟨0x01#8, a, b⟩ = .instr (.classify a) ∧
    ∃ y, exec (.classify a) s = .next { s with phase := .done ⟨y, 0#32, false⟩ } ∧
      y.getLsbD 31 = a.getLsbD 31 ∧ y.extractLsb' 3 28 = 0#28 ∧
      (IsZero a → y.extractLsb' 0 3 = 0#3) ∧ (IsSubnormal a → y.extractLsb' 0 3 = 1#3) ∧
      (IsNormal a → y.extractLsb' 0 3 = 2#3) ∧ (IsInf a → y.extractLsb' 0 3 = 3#3) ∧
      (IsNaN a → y.extractLsb' 0 3 = 4#3)

/-- R51. `DECOMP` answers the mantissa with the implicit bit restored, and the SE word of sign, class and exponent,
class by class. -/
def Obligations.DecompGivesSignExponentMantissa : Prop :=
  ∀ (a b : Word) (s : State),
    decode ⟨0x02#8, a, b⟩ = .instr (.decomp a) ∧
    ∃ y z, exec (.decomp a) s = .next { s with phase := .done ⟨y, z, false⟩ } ∧
      z.getLsbD 31 = a.getLsbD 31 ∧ z.extractLsb' 19 12 = 0#12 ∧
      (IsZero a → y = 0#32 ∧ z.extractLsb' 0 16 = 0xFF82#16 ∧ z.extractLsb' 16 3 = 0#3) ∧
      (IsSubnormal a →
        y.toNat = (fracField a).toNat ∧ z.extractLsb' 0 16 = 0xFF82#16 ∧ z.extractLsb' 16 3 = 1#3) ∧
      (IsNormal a →
        y.toNat = 0x800000 + (fracField a).toNat ∧
        (z.extractLsb' 0 16).toInt = ((expField a).toNat : ℤ) - 127 ∧ z.extractLsb' 16 3 = 2#3) ∧
      (IsInf a → y = 0x800000#32 ∧ z.extractLsb' 0 16 = 0x0080#16 ∧ z.extractLsb' 16 3 = 3#3) ∧
      (IsNaN a →
        y.toNat = 0x800000 + (fracField a).toNat ∧ z.extractLsb' 0 16 = 0x0080#16 ∧ z.extractLsb' 16 3 = 4#3)

/-- R52. `COMPOSE` rebuilds the image of biased exponent 255 as given, gives a signed zero for a zero mantissa, and
otherwise the magnitude `m * 2^(e-23)` rounded once by the mode. -/
def Obligations.ComposeRoundsTheFields : Prop :=
  ∀ (rm : Rm) (m b : Word) (s : State),
    decode ⟨0x03#8, m, b⟩ = .instr (.compose .rne m (b.getLsbD 31) (b.extractLsb' 0 16)) ∧
    ∀ (sign : Bool) (e : BitVec 16),
      ∃ y, exec (.compose rm m sign e) s = .next { s with phase := .done ⟨y, 0#32, false⟩ } ∧
        ComposeTable rm m sign e.toInt y

/-- R53. Decomposing then composing gives back every one of the 2^32 patterns, in every mode. -/
def Obligations.ComposeOfDecompIsTheOriginal : Prop :=
  ∀ (x : Word) (rm : Rm) (s t : State), ∃ y z,
    exec (.decomp x) s = .next { s with phase := .done ⟨y, z, false⟩ } ∧
    exec (.compose rm y (z.getLsbD 31) (z.extractLsb' 0 16)) t =
      .next { t with phase := .done ⟨x, 0#32, false⟩ }

/-- R41. For a finite pattern the decomposed fields are the value: `m * 2^(e-23)` is the magnitude, with `m` a 24-bit
number and `e` in -126 .. 127. -/
def Obligations.UnpackKeepsTheValue : Prop :=
  ∀ x : Word, IsFinite x →
    ((unpack x).m : ℚ) * (2 : ℚ) ^ ((unpack x).e - 23) = magnitude x ∧ (unpack x).m < 2 ^ 24 ∧
    -126 ≤ (unpack x).e ∧ (unpack x).e ≤ 127 ∧ (unpack x).sign = x.getLsbD 31

/-! ### Shared numerics (R42, R48, R54) -/

/-- R42. `normalise` sets bit 23 and keeps the value; it leaves a normal significand alone. -/
def Obligations.NormaliseKeepsTheValue : Prop :=
  ∀ (e : ℤ) (m : ℕ), 1 ≤ m → m < 2 ^ 24 →
    2 ^ 23 ≤ (normalise e m).2 ∧ (normalise e m).2 < 2 ^ 24 ∧
    ((normalise e m).2 : ℚ) * (2 : ℚ) ^ ((normalise e m).1 - 23) = (m : ℚ) * (2 : ℚ) ^ (e - 23) ∧
    (2 ^ 23 ≤ m → normalise e m = (e, m)) ∧ (-126 ≤ e → -149 ≤ (normalise e m).1)

/-- R48. `roundPack` is correct rounding, in every mode: of an exact magnitude `M * 2^e`, and of one strictly between
`M * 2^e` and `(M + 1) * 2^e` when the sticky bit is passed with at least 26 bits of `M`. -/
def Obligations.RoundPackRoundsCorrectly : Prop :=
  ∀ (rm : Rm) (s : Bool) (e : ℤ) (M : ℕ) (st : Bool) (V : ℚ), 1 ≤ M →
    (st = false → V = (M : ℚ) * (2 : ℚ) ^ e) →
    (st = true → 26 ≤ bitlen M ∧ (M : ℚ) * (2 : ℚ) ^ e < V ∧ V < ((M : ℚ) + 1) * (2 : ℚ) ^ e) →
    RoundsTo rm s V (roundPack rm s e M st)

/-- R54. The alignment shifter is the floor shift with every bit shifted out ORed into bit 0, at any distance. -/
def Obligations.ShrJamKeepsTheSticky : Prop :=
  ∀ X d : ℕ, X < 2 ^ 27 →
    (d = 0 → shrJam X d = X) ∧
    (27 ≤ d → shrJam X d = if X = 0 then 0 else 1) ∧
    shrJam X d = (X / 2 ^ d) ||| (if X % 2 ^ d = 0 then 0 else 1)

/-! ### The adder (R56 to R58) -/

/-- R56. `ADD` answers by the rule's table: the special operands, the zeros, exact cancellation, and otherwise the
exact sum rounded once by the mode. -/
def Obligations.AddRoundsTheExactSum : Prop :=
  ∀ (rm : Rm) (a b : Word) (s : State),
    decode ⟨0x04#8, a, b⟩ = .instr (.add .rne a b) ∧
    ∃ y, exec (.add rm a b) s = .next { s with phase := .done ⟨y, 0#32, false⟩ } ∧ AddTable rm a b y

/-- R57. `SUB a, b` answers exactly as `ADD a, b ^ 0x80000000` does, which is the exact difference rounded once; and
`x - x` is `+0` for every finite `x` (`-0` under the extension's `RDN`, R46) and `CANON_NAN` for the others. -/
def Obligations.SubIsAddOfTheNegated : Prop :=
  ∀ (rm : Rm) (a b : Word) (s : State),
    decode ⟨0x05#8, a, b⟩ = .instr (.sub .rne a b) ∧
    ∃ y, exec (.sub rm a b) s = .next { s with phase := .done ⟨y, 0#32, false⟩ } ∧
      exec (.add rm a (b ^^^ 0x80000000#32)) s = .next { s with phase := .done ⟨y, 0#32, false⟩ } ∧
      AddTable rm a (b ^^^ 0x80000000#32) y ∧
      (a = b → IsFinite a → y = if rm = .rdn then 0x80000000#32 else 0x00000000#32) ∧
      (a = b → ¬ IsFinite a → y = Config.canonNaN)

/-- R58, item 2. `ADD` commutes bit for bit on all pairs, NaNs included; `SUB a, b` and `SUB b, a` differ in sign
except when both are zeros or NaNs. -/
def Obligations.AddCommutesAndSubNegates : Prop :=
  ∀ (rm : Rm) (a b : Word) (s : State),
    exec (.add rm a b) s = exec (.add rm b a) s ∧
    ∃ y y', exec (.sub rm a b) s = .next { s with phase := .done ⟨y, 0#32, false⟩ } ∧
      exec (.sub rm b a) s = .next { s with phase := .done ⟨y', 0#32, false⟩ } ∧
      (signBit y ≠ signBit y' ∨ (IsZero y ∧ IsZero y') ∨ (IsNaN y ∧ IsNaN y'))

/-! ### The multiplier and the divider (R59 to R62) -/

/-- R59. `MUL` answers by the rule's table: the special operands, and otherwise the exact product rounded once by the
mode. -/
def Obligations.MulRoundsTheExactProduct : Prop :=
  ∀ (rm : Rm) (a b : Word) (s : State),
    decode ⟨0x08#8, a, b⟩ = .instr (.mul .rne a b) ∧
    ∃ y, exec (.mul rm a b) s = .next { s with phase := .done ⟨y, 0#32, false⟩ } ∧ MulTable rm a b y

/-- R60, items 2 and 4. `MUL` commutes bit for bit on all pairs, and every result that is no NaN has the exclusive or
of the operand signs. -/
def Obligations.MulCommutesAndXorsTheSigns : Prop :=
  ∀ (rm : Rm) (a b : Word) (s : State),
    exec (.mul rm a b) s = exec (.mul rm b a) s ∧
    ∃ y, exec (.mul rm a b) s = .next { s with phase := .done ⟨y, 0#32, false⟩ } ∧
      (¬ IsNaN y → signBit y = (signBit a ^^ signBit b))

/-- R61, the bound of the quotient: on normalised significands the integer quotient has 26 or 27 bits, so guard and
round come from it. -/
def Obligations.DividerQuotientHasGuardBits : Prop :=
  ∀ (ea eb : ℤ) (ma mb : ℕ), 1 ≤ ma → ma < 2 ^ 24 → 1 ≤ mb → mb < 2 ^ 24 →
    2 ^ 25 < ((normalise ea ma).2 <<< 26) / (normalise eb mb).2 ∧
    ((normalise ea ma).2 <<< 26) / (normalise eb mb).2 < 2 ^ 27

/-- R61. `DIV` answers by the rule's table: the special operands, zero divisors and dividends, and otherwise the exact
quotient rounded once by the mode. -/
def Obligations.DivRoundsTheExactQuotient : Prop :=
  ∀ (rm : Rm) (a b : Word) (s : State),
    decode ⟨0x0C#8, a, b⟩ = .instr (.div .rne a b) ∧
    ∃ y, exec (.div rm a b) s = .next { s with phase := .done ⟨y, 0#32, false⟩ } ∧ DivTable rm a b y

/-- R62, items 4 and 5. `DIV x, x` is 1 exactly for finite nonzero `x` and `CANON_NAN` otherwise, and every result
that is no NaN has the exclusive or of the operand signs. -/
def Obligations.DivSelfIsOneAndSignsXor : Prop :=
  ∀ (rm : Rm) (a b : Word) (s : State),
    (∃ y, exec (.div rm a a) s = .next { s with phase := .done ⟨y, 0#32, false⟩ } ∧
      y = if IsFinite a ∧ ¬ IsZero a then 0x3F800000#32 else Config.canonNaN) ∧
    ∃ y, exec (.div rm a b) s = .next { s with phase := .done ⟨y, 0#32, false⟩ } ∧
      (¬ IsNaN y → signBit y = (signBit a ^^ signBit b))

/-! ### The comparator (R63 to R71) -/

/-- R64 with R63. `CMP` answers the one bit of the order of the two values: `un` when a NaN is there, else `lt`, `eq`
or `gt` of the extended values. -/
def Obligations.CmpReportsTheValueOrder : Prop :=
  ∀ (a b : Word) (s : State),
    decode ⟨0x10#8, a, b⟩ = .instr (.cmp a b) ∧
    ∃ y, exec (.cmp a b) s = .next { s with phase := .done ⟨y, 0#32, false⟩ } ∧
      (IsNaN a ∨ IsNaN b → y = 0x8#32) ∧
      (¬ IsNaN a → ¬ IsNaN b →
        (extVal a < extVal b → y = 0x1#32) ∧ (extVal a = extVal b → y = 0x2#32) ∧
        (extVal b < extVal a → y = 0x4#32))

/-- R65, R66. `EQ` is value equality, which is bit equality but for the two zeros and the NaNs; `NE` is its exact
complement, so 1 on a NaN. -/
def Obligations.EqIsValueEqualityAndNeItsComplement : Prop :=
  ∀ (a b : Word) (s : State),
    decode ⟨0x11#8, a, b⟩ = .instr (.eq a b) ∧ decode ⟨0x12#8, a, b⟩ = .instr (.ne a b) ∧
    ∃ p : Bool,
      exec (.eq a b) s = .next { s with phase := .done ⟨if p then 1#32 else 0#32, 0#32, false⟩ } ∧
      exec (.ne a b) s = .next { s with phase := .done ⟨if p then 0#32 else 1#32, 0#32, false⟩ } ∧
      (p = true ↔ ¬ IsNaN a ∧ ¬ IsNaN b ∧ extVal a = extVal b) ∧
      (p = true ↔ (a = b ∧ ¬ IsNaN a) ∨ (IsZero a ∧ IsZero b))

/-- R67 to R70. `LT`, `LE`, `GT` and `GE` are the order of the two values, all 0 with a NaN on either side; `GT a, b`
equals `LT b, a` and `GE a, b` equals `LE b, a`. -/
def Obligations.OrderPredicatesAreTheValueOrder : Prop :=
  ∀ (a b : Word) (s : State),
    decode ⟨0x13#8, a, b⟩ = .instr (.lt a b) ∧ decode ⟨0x14#8, a, b⟩ = .instr (.le a b) ∧
    decode ⟨0x15#8, a, b⟩ = .instr (.gt a b) ∧ decode ⟨0x16#8, a, b⟩ = .instr (.ge a b) ∧
    (∃ lt le gt ge : Bool,
      exec (.lt a b) s = .next { s with phase := .done ⟨if lt then 1#32 else 0#32, 0#32, false⟩ } ∧
      exec (.le a b) s = .next { s with phase := .done ⟨if le then 1#32 else 0#32, 0#32, false⟩ } ∧
      exec (.gt a b) s = .next { s with phase := .done ⟨if gt then 1#32 else 0#32, 0#32, false⟩ } ∧
      exec (.ge a b) s = .next { s with phase := .done ⟨if ge then 1#32 else 0#32, 0#32, false⟩ } ∧
      (lt = true ↔ ¬ IsNaN a ∧ ¬ IsNaN b ∧ extVal a < extVal b) ∧
      (le = true ↔ ¬ IsNaN a ∧ ¬ IsNaN b ∧ extVal a ≤ extVal b) ∧
      (gt = true ↔ ¬ IsNaN a ∧ ¬ IsNaN b ∧ extVal b < extVal a) ∧
      (ge = true ↔ ¬ IsNaN a ∧ ¬ IsNaN b ∧ extVal b ≤ extVal a)) ∧
    exec (.gt a b) s = exec (.lt b a) s ∧ exec (.ge a b) s = exec (.le b a) s

/-- R71, items 1 to 3. Exchanging the operands exchanges `LT` and `GT`; `rel x x` is `EQ` for every pattern but a NaN
and `UN` for a NaN; and "less or equal" is transitive, strictly so when one of the two is strict. -/
def Obligations.RelationIsATotalPreorder : Prop :=
  ∀ a b c : Word,
    (rel b a = match rel a b with
      | .lt => .gt
      | .eq => .eq
      | .gt => .lt
      | .un => .un) ∧
    (rel a a = if IsNaN a then .un else .eq) ∧
    (rel a b = .un ↔ IsNaN a ∨ IsNaN b) ∧
    (rel a b ∈ [Rel.lt, Rel.eq] → rel b c ∈ [Rel.lt, Rel.eq] →
      rel a c = if rel a b = .eq ∧ rel b c = .eq then .eq else .lt)

/-- R71, item 4. For non-NaN operands that are not two infinities of one sign, `rel` is `EQ` exactly when `SUB`
returns a zero, and `LT` exactly when the difference is negative and no zero, in every mode. -/
def Obligations.RelationAgreesWithSub : Prop :=
  ∀ (rm : Rm) (a b : Word) (s : State), ¬ IsNaN a → ¬ IsNaN b → ¬ (IsInf a ∧ IsInf b ∧ signBit a = signBit b) →
    ∃ y, exec (.sub rm a b) s = .next { s with phase := .done ⟨y, 0#32, false⟩ } ∧
      (rel a b = .eq ↔ IsZero y) ∧ (rel a b = .lt ↔ signBit y = true ∧ ¬ IsZero y)
end

