-- ==== Sys2Proof/Laws/Decode.lean ====
section
/-! SUPPORT. The fields of a command byte and of an SE word that the encoder writes and the decoder reads
(spec/30_encoding.md R30, R32, R33). -/

namespace Sys2Proof

@[simp] theorem opField_cmdByte (rm : BitVec 3) (op : BitVec 5) : opField (cmdByte rm op) = op := by
  revert rm op; decide

@[simp] theorem rmField_cmdByte (rm : BitVec 3) (op : BitVec 5) : rmField (cmdByte rm op) = rm := by
  revert rm op; decide

/-- A command byte is its two fields (R30). -/
theorem cmdByte_fields (cmd : Byte) : cmdByte (rmField cmd) (opField cmd) = cmd := by
  revert cmd; decide

/-- The bits of an SE word: exponent field, class code, twelve zeros, sign (R33). -/
theorem getLsbD_seWord (sign : Bool) (cls : BitVec 3) (e : BitVec 16) (i : Nat) :
    (seWord sign cls e).getLsbD i =
      if i < 16 then e.getLsbD i else if i < 19 then cls.getLsbD (i - 16) else decide (i = 31) && sign := by
  simp only [seWord, BitVec.getLsbD_append, BitVec.getLsbD_ofBool, BitVec.getLsbD_zero]
  by_cases h1 : i < 16
  · simp [h1]
  · by_cases h2 : i < 19
    · simp [h1, h2, show i - 16 < 3 by omega]
    · by_cases h3 : i < 31
      · simp [h1, h2, show ¬ (i - 16 < 3) by omega, show i - 16 - 3 < 12 by omega, show i ≠ 31 by omega]
      · simp [h1, h2, show ¬ (i - 16 < 3) by omega, show ¬ (i - 16 - 3 < 12) by omega,
          show (i - 16 - 3 - 12 = 0) = (i = 31) by apply propext; omega]

@[simp] theorem seSign_seWord (sign : Bool) (cls : BitVec 3) (e : BitVec 16) : seSign (seWord sign cls e) = sign := by
  rw [seSign, getLsbD_seWord]
  simp

@[simp] theorem seExp_seWord (sign : Bool) (cls : BitVec 3) (e : BitVec 16) : seExp (seWord sign cls e) = e := by
  apply BitVec.eq_of_getLsbD_eq
  intro i hi
  rw [seExp, BitVec.getLsbD_extractLsb', getLsbD_seWord]
  simp [hi]

/-- The decoder reads back the code of a legal rounding mode. -/
theorem decodeRm_code {ext : Bool} {rm : Rm} (h : rm.legal ext = true) : decodeRm ext rm.code = some rm := by
  revert h
  cases ext <;> cases rm <;> decide

/-- A mode the decoder gives is legal, and its code is the field it was read from. -/
theorem decodeRm_eq_some {ext : Bool} {f : BitVec 3} {rm : Rm} (h : decodeRm ext f = some rm) :
    rm.legal ext = true ∧ rm.code = f := by
  revert h
  cases ext <;> cases rm <;> revert f <;> decide

end Sys2Proof
end

