-- ==== Sys2Proof/Laws/Fields.lean ====
section
/-! SUPPORT. The fields of a pattern: what `pack` writes, that the three fields determine the word, and what
`classify` and `unpack` answer in terms of the fields (R38, R40, R41). -/

namespace Sys2Proof.Machine

/-- The bits of `{s, E[7:0], F[22:0]}`: mantissa field below, exponent field above it, sign on top. -/
theorem getLsbD_pack (s : Bool) (E F i : Nat) :
    (pack s E F).getLsbD i =
      if i < 23 then F.testBit i else if i < 31 then E.testBit (i - 23) else decide (i = 31) && s := by
  simp only [pack, BitVec.getLsbD_append, BitVec.getLsbD_ofNat, BitVec.getLsbD_ofBool]
  by_cases h1 : i < 23
  · simp [h1]
  · by_cases h2 : i < 31
    · simp [h1, h2, show i - 23 < 8 by omega]
    · simp [h1, h2, show ¬ (i - 23 < 8) by omega, show (i - 23 - 8 = 0) = (i = 31) by
        apply propext; omega]

@[simp] theorem signBit_pack (s : Bool) (E F : Nat) : signBit (pack s E F) = s := by
  rw [signBit, getLsbD_pack]
  simp

@[simp] theorem expField_pack (s : Bool) (E F : Nat) : expField (pack s E F) = BitVec.ofNat 8 E := by
  apply BitVec.eq_of_getLsbD_eq
  intro i hi
  rw [expField, BitVec.getLsbD_extractLsb', getLsbD_pack, BitVec.getLsbD_ofNat]
  simp [hi, show ¬ (23 + i < 23) by omega, show 23 + i < 31 by omega]

@[simp] theorem fracField_pack (s : Bool) (E F : Nat) : fracField (pack s E F) = BitVec.ofNat 23 F := by
  apply BitVec.eq_of_getLsbD_eq
  intro i hi
  rw [fracField, BitVec.getLsbD_extractLsb', getLsbD_pack, BitVec.getLsbD_ofNat]
  simp [hi]

/-- A word is its sign, its exponent field and its mantissa field (R38). -/
theorem pack_fields (x : Word) : pack (signBit x) (expField x).toNat (fracField x).toNat = x := by
  apply BitVec.eq_of_getLsbD_eq
  intro i hi
  rw [getLsbD_pack]
  simp only [BitVec.testBit_toNat, signBit, expField, fracField, BitVec.getLsbD_extractLsb']
  split_ifs with h1 h2
  · simp [h1]
  · simp [show i - 23 < 8 by omega, show 23 + (i - 23) = i by omega]
  · simp [show i = 31 by omega]

/-- Two words with the same three fields are the same word. -/
theorem word_ext {x y : Word} (hs : signBit x = signBit y) (he : expField x = expField y)
    (hf : fracField x = fracField y) : x = y := by
  rw [← pack_fields x, ← pack_fields y, hs, he, hf]

theorem classify_eq_zero_iff (x : Word) : classify x = .zero ↔ IsZero x := by
  simp only [classify, IsZero]
  split_ifs <;> simp_all

theorem classify_eq_subnormal_iff (x : Word) : classify x = .subnormal ↔ IsSubnormal x := by
  simp only [classify, IsSubnormal]
  split_ifs <;> simp_all

theorem classify_eq_normal_iff (x : Word) : classify x = .normal ↔ IsNormal x := by
  simp only [classify, IsNormal]
  split_ifs <;> simp_all

theorem classify_eq_infinity_iff (x : Word) : classify x = .infinity ↔ IsInf x := by
  simp only [classify, IsInf]
  split_ifs with h1 <;> simp_all

theorem classify_eq_nan_iff (x : Word) : classify x = .nan ↔ IsNaN x := by
  simp only [classify, IsNaN]
  split_ifs with h1 <;> simp_all

@[simp] theorem unpack_cls (x : Word) : (unpack x).cls = classify x := by
  unfold unpack
  split <;> rfl

@[simp] theorem unpack_sign (x : Word) : (unpack x).sign = signBit x := by
  unfold unpack
  split <;> rfl

/-- `unpack` of a zero or a subnormal (R41). -/
theorem unpack_of_exp_zero {x : Word} (h : expField x = 0#8) :
    (unpack x).e = -126 ∧ (unpack x).m = (fracField x).toNat := by
  simp [unpack, h]

/-- `unpack` of every other pattern (R41). -/
theorem unpack_of_exp_ne_zero {x : Word} (h : expField x ≠ 0#8) :
    (unpack x).e = ((expField x).toNat : Int) - 127 ∧ (unpack x).m = 2 ^ 23 + (fracField x).toNat := by
  simp [unpack, h]

/-- The decomposed mantissa is a 24-bit number (R41). -/
theorem unpack_m_lt (x : Word) : (unpack x).m < 2 ^ 24 := by
  have hf := (fracField x).isLt
  by_cases h : expField x = 0#8
  · rw [(unpack_of_exp_zero h).2]; omega
  · rw [(unpack_of_exp_ne_zero h).2]; omega

/-- The decomposed exponent lies in -126 .. 128 (R41). -/
theorem unpack_e_range (x : Word) : -126 ≤ (unpack x).e ∧ (unpack x).e ≤ 128 := by
  have he := (expField x).isLt
  by_cases h : expField x = 0#8
  · rw [(unpack_of_exp_zero h).1]; omega
  · rw [(unpack_of_exp_ne_zero h).1]
    have : (expField x).toNat ≠ 0 := fun h0 => h (by
      apply BitVec.eq_of_toNat_eq; simpa using h0)
    omega

end Sys2Proof.Machine
end

