-- ==== Sys2Proof/Laws/Numerics.lean ====
section
/-! SUPPORT. The integer functions under the datapaths: `bitlen`, the bits that a right shift discards, and the
rounding decision (spec/00_scope.md, Notation; spec/40_numerics_common.md R44, R47). -/

namespace Sys2Proof.Machine

@[simp] theorem bitlen_zero : bitlen 0 = 0 := rfl

/-- `M < 2^bitlen(M)`. -/
theorem lt_two_pow_bitlen (M : Nat) : M < 2 ^ bitlen M := by
  unfold bitlen
  split
  · simp_all
  · exact Nat.lt_log2_self

/-- `2^(bitlen(M) - 1) ≤ M` for a nonzero `M`. -/
theorem two_pow_bitlen_le {M : Nat} (h : M ≠ 0) : 2 ^ (bitlen M - 1) ≤ M := by
  simp [bitlen, h, Nat.log2_self_le h]

/-- `bitlen(M)` is the least `L` with `M < 2^L`. -/
theorem bitlen_le_iff {M L : Nat} : bitlen M ≤ L ↔ M < 2 ^ L := by
  constructor
  · intro h
    exact lt_of_lt_of_le (lt_two_pow_bitlen M) (Nat.pow_le_pow_right (by norm_num) h)
  · intro h
    by_cases hM : M = 0
    · simp [hM]
    · by_contra hlt
      have h1 : 2 ^ L ≤ 2 ^ (bitlen M - 1) := Nat.pow_le_pow_right (by norm_num) (by omega)
      have h2 := two_pow_bitlen_le hM
      omega

theorem bitlen_pos {M : Nat} (h : M ≠ 0) : 0 < bitlen M := by
  simp [bitlen, h]

/-- Nothing is discarded when the shift is not positive (R47). -/
theorem cut_of_nonpos {sh : Int} (M : Nat) (st : Bool) (h : sh ≤ 0) :
    cut sh M st = ⟨M * 2 ^ (-sh).toNat, false, false, false⟩ := by
  simp [cut, h, Nat.shiftLeft_eq]

/-- A positive shift by `n` keeps `M / 2^n`; guard, round and sticky are the bits below (R47). -/
theorem cut_of_pos (n M : Nat) (st : Bool) (h : 0 < n) :
    cut (n : Int) M st =
      ⟨M / 2 ^ n, M.testBit (n - 1), decide (2 ≤ n) && M.testBit (n - 2),
        (decide (3 ≤ n) && decide (M % 2 ^ (n - 2) ≠ 0)) || st⟩ := by
  have h0 : ¬ ((n : Int) ≤ 0) := by omega
  have h1 : ((n : Int) - 1).toNat = n - 1 := by omega
  have h2 : ((n : Int) - 2).toNat = n - 2 := by omega
  have h3 : ¬ ((n : Int) < 1) := by omega
  simp only [cut, h0, if_false, Int.toNat_natCast, Nat.shiftRight_eq_div_pow, bitAt, h2]
  by_cases hn : 2 ≤ n
  · have h4 : ¬ ((n : Int) < 2) := by omega
    simp [hn, h1, h3, h4]
  · have h4 : (n : Int) < 2 := by omega
    simp [hn, h1, h3, h4]

/-- Every rounding mode reads the discarded bits only through `G` and `R | S` (R44). -/
theorem roundInc_congr (rm : Rm) (s lsb g r st r' st' : Bool) (h : (r || st) = (r' || st')) :
    roundInc rm s lsb g r st = roundInc rm s lsb g r' st' := by
  cases rm <;> simp [roundInc, Bool.or_assoc, ← h]

/-- Nothing discarded, nothing added (R44). -/
@[simp] theorem roundInc_exact (rm : Rm) (s lsb : Bool) : roundInc rm s lsb false false false = false := by
  cases rm <;> simp [roundInc]

/-- Packing a result of at most 24 bits whose exponent is in range (R47). -/
theorem packRounded_of_normal (rm : Rm) (s : Bool) (K : Nat) (et : Int) (h1 : 2 ^ 23 ≤ K) (h2 : K < 2 ^ 24)
    (h3 : et ≤ 127) : packRounded rm s K et = pack s (et + 127).toNat K := by
  have hK : K ≠ 16777216 := by omega
  have hb : ¬ (K < 8388608) := by omega
  have he : ¬ (et + 127 ≥ 255) := by omega
  simp only [packRounded, Nat.reducePow, hK, if_false, hb, he]

theorem packRounded_of_subnormal (rm : Rm) (s : Bool) (K : Nat) (et : Int) (h : K < 2 ^ 23) :
    packRounded rm s K et = pack s 0 K := by
  have hK : K ≠ 16777216 := by omega
  have hb : K < 8388608 := by omega
  simp [packRounded, hK, hb]

/-- A carry out of 24 bits moves to the next binade (R47). -/
theorem packRounded_carry (rm : Rm) (s : Bool) (et : Int) :
    packRounded rm s (2 ^ 24) et = packRounded rm s (2 ^ 23) (et + 1) := by
  simp [packRounded]

theorem packRounded_overflow (rm : Rm) (s : Bool) (K : Nat) (et : Int) (h1 : 2 ^ 23 ≤ K) (h2 : K < 2 ^ 24)
    (h3 : 128 ≤ et) : packRounded rm s K et = overflow rm s := by
  have hK : K ≠ 16777216 := by omega
  have hb : ¬ (K < 8388608) := by omega
  have he : et + 127 ≥ 255 := by omega
  simp only [packRounded, Nat.reducePow, hK, if_false, hb, he, if_true]

/-- The overflow results are the patterns that R45 writes. -/
theorem overflow_eq_pattern (rm : Rm) (s : Bool) : overflow rm s = overflowPattern rm s := by
  cases rm <;> cases s <;> decide

/-- The zero of exact cancellation (R46). -/
theorem cancelZero_eq (rm : Rm) : cancelZero rm = zeroOf (decide (rm = .rdn)) := by
  cases rm <;> decide

theorem packZero_eq (s : Bool) : packZero s = zeroOf s := by cases s <;> decide

theorem packInf_eq (s : Bool) : packInf s = infOf s := by cases s <;> decide

/-- The canonical NaN is a NaN (R4, R43): the only constraint a claim that survives another choice may use. -/
theorem canonNaN_isNaN : IsNaN Config.canonNaN := by decide

end Sys2Proof.Machine
end

