-- ==== Sys2Proof/Laws/PerInstr.lean ====
section
/-! SUPPORT. What is said of every instruction as syntax, one lemma for each constructor: the command byte that the
encoder writes for a well-formed instruction is a legal one (R30, R35). -/

namespace Sys2Proof.Laws.LegalByte

/-- The encoder writes a legal command byte for every well-formed instruction. -/
def Statement (i : Instr) : Prop :=
  ∀ ext : Bool, i.wellFormedWith ext = true → legal ext (encode i).cmd = true

/-- A byte made of a legal mode and one of the five rounding operations is legal. -/
theorem legal_of_mode (rm : Rm) (op : BitVec 5) (hop : op ∈ [0x03#5, 0x04#5, 0x05#5, 0x08#5, 0x0C#5]) (ext : Bool)
    (h : rm.legal ext = true) : legal ext (cmdByte rm.code op) = true := by
  simp only [List.mem_cons, List.not_mem_nil, or_false] at hop
  rcases hop with rfl | rfl | rfl | rfl | rfl <;> cases ext <;> cases rm <;> first | rfl | cases h

/-- A byte made of `rm = 0b000` and one of the nine operations that do not round is legal. -/
theorem legal_plain (op : BitVec 5)
    (hop : op ∈ [0x01#5, 0x02#5, 0x10#5, 0x11#5, 0x12#5, 0x13#5, 0x14#5, 0x15#5, 0x16#5]) (ext : Bool) :
    legal ext (cmdByte 0#3 op) = true := by
  simp only [List.mem_cons, List.not_mem_nil, or_false] at hop
  rcases hop with rfl | rfl | rfl | rfl | rfl | rfl | rfl | rfl | rfl <;> cases ext <;> decide

theorem classify (a : Word) : Statement (.classify a) := fun ext _ => legal_plain _ (by decide) ext

theorem decomp (a : Word) : Statement (.decomp a) := fun ext _ => legal_plain _ (by decide) ext

theorem compose (rm : Rm) (m : Word) (sign : Bool) (e : BitVec 16) : Statement (.compose rm m sign e) :=
  legal_of_mode rm _ (by decide)

theorem add (rm : Rm) (a b : Word) : Statement (.add rm a b) := legal_of_mode rm _ (by decide)

theorem sub (rm : Rm) (a b : Word) : Statement (.sub rm a b) := legal_of_mode rm _ (by decide)

theorem mul (rm : Rm) (a b : Word) : Statement (.mul rm a b) := legal_of_mode rm _ (by decide)

theorem div (rm : Rm) (a b : Word) : Statement (.div rm a b) := legal_of_mode rm _ (by decide)

theorem cmp (a b : Word) : Statement (.cmp a b) := fun ext _ => legal_plain _ (by decide) ext

theorem eq (a b : Word) : Statement (.eq a b) := fun ext _ => legal_plain _ (by decide) ext

theorem ne (a b : Word) : Statement (.ne a b) := fun ext _ => legal_plain _ (by decide) ext

theorem lt (a b : Word) : Statement (.lt a b) := fun ext _ => legal_plain _ (by decide) ext

theorem le (a b : Word) : Statement (.le a b) := fun ext _ => legal_plain _ (by decide) ext

theorem gt (a b : Word) : Statement (.gt a b) := fun ext _ => legal_plain _ (by decide) ext

theorem ge (a b : Word) : Statement (.ge a b) := fun ext _ => legal_plain _ (by decide) ext

end Sys2Proof.Laws.LegalByte
end

