-- ==== Sys2Proof/Laws/State.lean ====
section
/-! SUPPORT. One lemma for each field and each update of the state, so that no proof unfolds an update. -/

namespace Sys2Proof.Machine

@[simp] theorem reset_phase : State.reset.phase = .idle := rfl
@[simp] theorem reset_slack : State.reset.slack = 0 := rfl
@[simp] theorem reset_schedule : State.reset.schedule = [] := rfl
@[simp] theorem reset_edges : State.reset.edges = 0 := rfl

@[simp] theorem tick_phase (s : State) : (tick s).phase = s.phase := rfl
@[simp] theorem tick_slack (s : State) : (tick s).slack = s.slack := rfl
@[simp] theorem tick_schedule (s : State) : (tick s).schedule = s.schedule.tail := rfl
@[simp] theorem tick_edges (s : State) : (tick s).edges = s.edges + 1 := rfl

@[simp] theorem respond_phase (y z : Word) (err : Bool) (s : State) :
    (respond y z err s).phase = .done ⟨y, z, err⟩ := rfl
@[simp] theorem respond_slack (y z : Word) (err : Bool) (s : State) : (respond y z err s).slack = s.slack := rfl
@[simp] theorem respond_schedule (y z : Word) (err : Bool) (s : State) :
    (respond y z err s).schedule = s.schedule := rfl
@[simp] theorem respond_edges (y z : Word) (err : Bool) (s : State) : (respond y z err s).edges = s.edges := rfl

@[simp] theorem respondIllegal_phase (s : State) : (respondIllegal s).phase = .done ⟨0#32, 0#32, true⟩ := rfl
@[simp] theorem respondIllegal_slack (s : State) : (respondIllegal s).slack = s.slack := rfl
@[simp] theorem respondIllegal_schedule (s : State) : (respondIllegal s).schedule = s.schedule := rfl
@[simp] theorem respondIllegal_edges (s : State) : (respondIllegal s).edges = s.edges := rfl

@[simp] theorem accept_phase (e : Edge) (s : State) : (accept e s).phase = .busy (offered e.pins) := rfl
@[simp] theorem accept_slack (e : Edge) (s : State) : (accept e s).slack = e.slack := rfl
@[simp] theorem accept_schedule (e : Edge) (s : State) : (accept e s).schedule = s.schedule := rfl
@[simp] theorem accept_edges (e : Edge) (s : State) : (accept e s).edges = s.edges := rfl

@[simp] theorem wait_phase (s : State) : (wait s).phase = s.phase := rfl
@[simp] theorem wait_slack (s : State) : (wait s).slack = s.slack - 1 := rfl
@[simp] theorem wait_schedule (s : State) : (wait s).schedule = s.schedule := rfl
@[simp] theorem wait_edges (s : State) : (wait s).edges = s.edges := rfl

@[simp] theorem deliver_phase (s : State) : (deliver s).phase = .idle := rfl
@[simp] theorem deliver_slack (s : State) : (deliver s).slack = s.slack := rfl
@[simp] theorem deliver_schedule (s : State) : (deliver s).schedule = s.schedule := rfl
@[simp] theorem deliver_edges (s : State) : (deliver s).edges = s.edges := rfl

@[simp] theorem resetBlock_phase (s : State) : (resetBlock s).phase = .idle := rfl
@[simp] theorem resetBlock_slack (s : State) : (resetBlock s).slack = 0 := rfl
@[simp] theorem resetBlock_schedule (s : State) : (resetBlock s).schedule = s.schedule := rfl
@[simp] theorem resetBlock_edges (s : State) : (resetBlock s).edges = s.edges := rfl

@[simp] theorem loadCommand_phase (c : Command) (s : State) : (loadCommand c s).phase = .busy c := rfl
@[simp] theorem loadCommand_slack (c : Command) (s : State) : (loadCommand c s).slack = 0 := rfl
@[simp] theorem loadCommand_schedule (c : Command) (s : State) :
    (loadCommand c s).schedule = withoutReset s.schedule := rfl
@[simp] theorem loadCommand_edges (c : Command) (s : State) : (loadCommand c s).edges = s.edges := rfl

end Sys2Proof.Machine
end

