-- ==== Sys2Proof/Laws/Step.lean ====
section
/-! SUPPORT. What one clock edge, one command and one instruction can do, said once each. -/

namespace Sys2Proof.Machine

theorem nextEdge_cons (s : State) (e : Edge) (es : List Edge) (h : s.schedule = e :: es) : nextEdge s = e := by
  simp [nextEdge, h]

theorem nextEdge_nil (s : State) (h : s.schedule = []) : nextEdge s = Config.freeEdge s.edges := by
  simp [nextEdge, h]

/-- The coming edge depends on the schedule and the edge count alone. -/
theorem nextEdge_congr {s t : State} (h : s.schedule = t.schedule) (he : s.edges = t.edges) :
    nextEdge s = nextEdge t := by
  simp [nextEdge, h, he]

theorem pins_congr {s t : State} (h : s.schedule = t.schedule) (he : s.edges = t.edges) : pins s = pins t := by
  simp [pins, nextEdge_congr h he]

/-- A placed command meets no reset at the coming edge. -/
@[simp] theorem loadCommand_rst (c : Command) (s : State) : (pins (loadCommand c s)).rst = false := by
  cases h : s.schedule <;> simp [pins, nextEdge, loadCommand, withoutReset, quietPins, h]

theorem reqReady_iff (s : State) : reqReady s = true ↔ s.phase = .idle ∧ (pins s).rst = false := by
  simp [reqReady]

theorem rspLines_eq_some_iff (s : State) (r : Response) : rspLines s = some r ↔ s.phase = .done r := by
  unfold rspLines
  cases s.phase <;> simp

theorem rspValid_iff (s : State) : rspValid s = true ↔ ∃ r, s.phase = .done r := by
  simp only [rspValid, Option.isSome_iff_exists, rspLines_eq_some_iff]

/-- Every legal command does one thing to the state: it puts a response with `err = 0` on the port, and `z` is zero
unless the command is `DECOMP` (R34). -/
theorem exec_cases {i : Instr} {s t : State} (h : exec i s = .next t) :
    (∃ y, t = respond y 0#32 false s) ∨ (∃ a, i = .decomp a ∧ t = respond (decompY a) (decompZ a) false s) := by
  cases i <;> (injection h with h) <;> subst h
  case decomp a => exact .inr ⟨a, rfl, rfl⟩
  all_goals exact .inl ⟨_, rfl⟩

/-- What COMPLETE's command can do: a legal command runs its instruction, an illegal one is answered with the
error response (R35, R37). -/
theorem runCommand_cases {ext : Bool} {c : Command} {s t : State} (h : runCommand ext c s = .next t) :
    (∃ i, decodeWith ext c = .instr i ∧ exec i s = .next t) ∨
    (∃ why, decodeWith ext c = .rejected why ∧ t = respondIllegal s) := by
  unfold runCommand at h
  split at h
  case h_1 i hd => exact .inl ⟨i, hd, h⟩
  case h_2 why hd =>
    injection h with h
    exact .inr ⟨why, hd, h.symm⟩

/-- What one clock edge can do (R10, R11, R12, R79). -/
theorem clockEdge_cases {ext : Bool} {s t : State} (h : clockEdge ext s = .next t) :
    ((pins s).rst = true ∧ t = resetBlock (tick s)) ∨
    ((pins s).rst = false ∧ s.phase = .idle ∧ (pins s).reqValid = true ∧ t = accept (nextEdge s) (tick s)) ∨
    ((pins s).rst = false ∧ s.phase = .idle ∧ (pins s).reqValid = false ∧ t = tick s) ∨
    ((pins s).rst = false ∧ ∃ c, s.phase = .busy c ∧ s.slack = 0 ∧ runCommand ext c (tick s) = .next t) ∨
    ((pins s).rst = false ∧ ∃ c, s.phase = .busy c ∧ s.slack ≠ 0 ∧ t = wait (tick s)) ∨
    ((pins s).rst = false ∧ ∃ r, s.phase = .done r ∧ (pins s).rspReady = true ∧ t = deliver (tick s)) ∨
    ((pins s).rst = false ∧ ∃ r, s.phase = .done r ∧ (pins s).rspReady = false ∧ t = tick s) := by
  unfold clockEdge at h
  split at h
  case isTrue hr =>
    injection h with h
    exact .inl ⟨hr, h.symm⟩
  case isFalse hr =>
    have hr : (pins s).rst = false := by simpa using hr
    right
    split at h
    case h_1 hp =>
      injection h with h
      by_cases hv : (pins s).reqValid = true
      · exact .inl ⟨hr, hp, hv, by simpa [hv] using h.symm⟩
      · exact .inr (.inl ⟨hr, hp, by simpa using hv, by simpa [hv] using h.symm⟩)
    case h_2 c hp =>
      right; right
      split at h
      case isTrue hz => exact .inl ⟨hr, c, hp, hz, h⟩
      case isFalse hz =>
        injection h with h
        exact .inr (.inl ⟨hr, c, hp, hz, h.symm⟩)
    case h_3 r hp =>
      injection h with h
      right; right; right; right
      by_cases hv : (pins s).rspReady = true
      · exact .inl ⟨hr, r, hp, hv, by simpa [hv] using h.symm⟩
      · exact .inr ⟨hr, r, hp, by simpa using hv, by simpa [hv] using h.symm⟩

theorem clockEdge_reset (ext : Bool) (s : State) (h : (pins s).rst = true) :
    clockEdge ext s = .next (resetBlock (tick s)) := by
  simp [clockEdge, h]

theorem clockEdge_idle (ext : Bool) (s : State) (hr : (pins s).rst = false) (hp : s.phase = .idle) :
    clockEdge ext s = .next (if (pins s).reqValid then accept (nextEdge s) (tick s) else tick s) := by
  simp [clockEdge, hr, hp]

theorem clockEdge_complete (ext : Bool) (s : State) (c : Command) (hr : (pins s).rst = false)
    (hp : s.phase = .busy c) (hz : s.slack = 0) : clockEdge ext s = runCommand ext c (tick s) := by
  simp [clockEdge, hr, hp, hz]

theorem clockEdge_wait (ext : Bool) (s : State) (c : Command) (hr : (pins s).rst = false)
    (hp : s.phase = .busy c) (hz : s.slack ≠ 0) : clockEdge ext s = .next (wait (tick s)) := by
  simp [clockEdge, hr, hp, hz]

theorem clockEdge_done (ext : Bool) (s : State) (r : Response) (hr : (pins s).rst = false)
    (hp : s.phase = .done r) :
    clockEdge ext s = .next (if (pins s).rspReady then deliver (tick s) else tick s) := by
  simp [clockEdge, hr, hp]

/-- The event of an edge, by phase. -/
theorem eventAt_reset (s : State) (h : (pins s).rst = true) : eventAt s = .reset := by
  simp [eventAt, h]

theorem eventAt_idle (s : State) (hr : (pins s).rst = false) (hp : s.phase = .idle) :
    eventAt s = if (pins s).reqValid then .accepted (offered (pins s)) else .nothing := by
  simp [eventAt, reqReady, rspLines, hr, hp]

theorem eventAt_busy (s : State) (c : Command) (hr : (pins s).rst = false) (hp : s.phase = .busy c) :
    eventAt s = .nothing := by
  simp [eventAt, reqReady, rspLines, hr, hp]

theorem eventAt_done (s : State) (r : Response) (hr : (pins s).rst = false) (hp : s.phase = .done r) :
    eventAt s = if (pins s).rspReady then .delivered r else .nothing := by
  simp [eventAt, reqReady, rspLines, hr, hp]

end Sys2Proof.Machine
end

