-- ==== Sys2Proof/Tests/Slice0.lean ====
section
/-! SUPPORT. The model's own tests. Expected values come from the spec: the encodings of spec/30_encoding.md R31, the
worked examples and corner cases of R50 to R70, and the vectors of spec/95_test_vectors.md named beside them. -/

namespace Sys2Proof.Tests

open Sys2Proof.Machine

/-! ### Well-formedness and decoding -/

/-- The one check refuses a rounding mode of the extension (R32 with `RM_EXT = false`). -/
theorem test_wellFormed_refuses_rtz : (Instr.add .rtz 0#32 0#32).wellFormed = false := by decide

theorem test_wellFormed_refuses_rmm_compose : (Instr.compose .rmm 1#32 false 0#16).wellFormed = false := by decide

theorem test_wellFormed_accepts_rne : (Instr.add .rne 0#32 0#32).wellFormed = true := by decide

/-- `CLASS` is `000 00001`, `b` ignored. -/
theorem test_decode_class : decode ⟨0b00000001#8, 5#32, 7#32⟩ = .instr (.classify 5#32) := by decide

/-- `DECOMP` is `000 00010`. -/
theorem test_decode_decomp : decode ⟨0b00000010#8, 5#32, 7#32⟩ = .instr (.decomp 5#32) := by decide

/-- `COMPOSE` is `000 00011`; bit 31 of `b` is the sign, bits 15:0 the exponent, the rest is ignored. -/
theorem test_decode_compose :
    decode ⟨0b00000011#8, 5#32, 0b11111111111111111000000000000001#32⟩ =
      .instr (.compose .rne 5#32 true 0b1000000000000001#16) := by decide

/-- `ADD` is `000 00100`. -/
theorem test_decode_add : decode ⟨0b00000100#8, 5#32, 7#32⟩ = .instr (.add .rne 5#32 7#32) := by decide

/-- `SUB` is `000 00101`. -/
theorem test_decode_sub : decode ⟨0b00000101#8, 5#32, 7#32⟩ = .instr (.sub .rne 5#32 7#32) := by decide

/-- `MUL` is `000 01000`. -/
theorem test_decode_mul : decode ⟨0b00001000#8, 5#32, 7#32⟩ = .instr (.mul .rne 5#32 7#32) := by decide

/-- `DIV` is `000 01100`. -/
theorem test_decode_div : decode ⟨0b00001100#8, 5#32, 7#32⟩ = .instr (.div .rne 5#32 7#32) := by decide

/-- `CMP` is `000 10000`. -/
theorem test_decode_cmp : decode ⟨0b00010000#8, 5#32, 7#32⟩ = .instr (.cmp 5#32 7#32) := by decide

/-- `EQ` is `000 10001`. -/
theorem test_decode_eq : decode ⟨0b00010001#8, 5#32, 7#32⟩ = .instr (.eq 5#32 7#32) := by decide

/-- `NE` is `000 10010`. -/
theorem test_decode_ne : decode ⟨0b00010010#8, 5#32, 7#32⟩ = .instr (.ne 5#32 7#32) := by decide

/-- `LT` is `000 10011`. -/
theorem test_decode_lt : decode ⟨0b00010011#8, 5#32, 7#32⟩ = .instr (.lt 5#32 7#32) := by decide

/-- `LE` is `000 10100`. -/
theorem test_decode_le : decode ⟨0b00010100#8, 5#32, 7#32⟩ = .instr (.le 5#32 7#32) := by decide

/-- `GT` is `000 10101`. -/
theorem test_decode_gt : decode ⟨0b00010101#8, 5#32, 7#32⟩ = .instr (.gt 5#32 7#32) := by decide

/-- `GE` is `000 10110`. -/
theorem test_decode_ge : decode ⟨0b00010110#8, 5#32, 7#32⟩ = .instr (.ge 5#32 7#32) := by decide

/-- `ADD.RTZ` is `001 00100` and needs the extension (R32, V153). -/
theorem test_decode_add_rtz :
    decodeWith true ⟨0b00100100#8, 5#32, 7#32⟩ = .instr (.add .rtz 5#32 7#32) ∧
    decodeWith false ⟨0b00100100#8, 5#32, 7#32⟩ = .rejected (.illegalMode 1#3) := by decide

/-- V146: the all-zero byte is no command. -/
theorem test_decode_zero_byte : decode ⟨0x00#8, 0#32, 0#32⟩ = .rejected (.reservedOp 0#5) := by decide

/-- V157: `CMP` with `rm = 001` is illegal whatever `RM_EXT`. -/
theorem test_decode_cmp_rm : decodeWith true ⟨0x30#8, 0#32, 0#32⟩ = .rejected (.illegalMode 1#3) := by decide

/-- R35: 14 of the 256 bytes are legal, 34 with the extension. -/
theorem test_legal_count :
    ((List.range 256).filter fun n => legal false (BitVec.ofNat 8 n)).length = 14 ∧
    ((List.range 256).filter fun n => legal true (BitVec.ofNat 8 n)).length = 34 := by decide

theorem test_table_word : decodeTableWord 8 0x0C = some (.div .rne 0#32 0#32) := by decide

/-! ### One command each, run by one step -/

/-- The phase after one step from reset with a command placed. -/
def phaseAfter (cmd : Byte) (a b : Word) : Option Phase :=
  match step (loadCommand ⟨cmd, a, b⟩ State.reset) with
  | .next t => some t.phase
  | .fault _ => none
  | .refused _ => none

/-- R50, worked example. -/
theorem test_class_nan : phaseAfter 0x01#8 0xFF800001#32 0#32 = some (.done ⟨0x80000004#32, 0#32, false⟩) := by decide

/-- V4. -/
theorem test_class_subnormal : phaseAfter 0x01#8 0x807FFFFF#32 0#32 = some (.done ⟨0x80000001#32, 0#32, false⟩) := by
  decide

/-- R51, worked example. -/
theorem test_decomp_pi :
    phaseAfter 0x02#8 0xC0490FDB#32 0#32 = some (.done ⟨0x00C90FDB#32, 0x80020001#32, false⟩) := by decide

/-- V18: no implicit bit, exponent -126. -/
theorem test_decomp_subnormal :
    phaseAfter 0x02#8 0x007FFFFF#32 0#32 = some (.done ⟨0x007FFFFF#32, 0x0001FF82#32, false⟩) := by decide

/-- V30: the code of biased exponent 255 is rebuilt, not rounded. -/
theorem test_compose_code :
    phaseAfter 0x03#8 0x00C90FDB#32 0x00000080#32 = some (.done ⟨0x7FC90FDB#32, 0#32, false⟩) := by decide

/-- V37: a tie rounded up to even. -/
theorem test_compose_tie :
    phaseAfter 0x03#8 0x01000003#32 0x00000017#32 = some (.done ⟨0x4B800002#32, 0#32, false⟩) := by decide

/-- V57: the sticky bit decides. -/
theorem test_add_sticky :
    phaseAfter 0x04#8 0x3F800000#32 0x33800001#32 = some (.done ⟨0x3F800001#32, 0#32, false⟩) := by decide

/-- V53: two zeros of one sign keep it. -/
theorem test_add_minus_zeros :
    phaseAfter 0x04#8 0x80000000#32 0x80000000#32 = some (.done ⟨0x80000000#32, 0#32, false⟩) := by decide

/-- V79: below a tie after a one-place normalisation. -/
theorem test_sub_round_down :
    phaseAfter 0x05#8 0x3F800000#32 0x33000001#32 = some (.done ⟨0x3F7FFFFF#32, 0#32, false⟩) := by decide

/-- V82: finite minus infinity. -/
theorem test_sub_inf :
    phaseAfter 0x05#8 0x3F800000#32 0x7F800000#32 = some (.done ⟨0xFF800000#32, 0#32, false⟩) := by decide

/-- R59, worked example. -/
theorem test_mul_example :
    phaseAfter 0x08#8 0xC0490FDB#32 0x402DF854#32 = some (.done ⟨0xC108A2C0#32, 0#32, false⟩) := by decide

/-- V94: a subnormal tie, to even. -/
theorem test_mul_subnormal_tie :
    phaseAfter 0x08#8 0x00000003#32 0x3F000000#32 = some (.done ⟨0x00000002#32, 0#32, false⟩) := by decide

/-- V110: the remainder decides. -/
theorem test_div_sticky :
    phaseAfter 0x0C#8 0x3F800000#32 0x3F7FFFFF#32 = some (.done ⟨0x3F800001#32, 0#32, false⟩) := by decide

/-- V125: no sign on a NaN result. -/
theorem test_div_zero_zero :
    phaseAfter 0x0C#8 0x80000000#32 0x00000000#32 = some (.done ⟨0x7FC00000#32, 0#32, false⟩) := by decide

/-- V137: the order of negative numbers is reversed. -/
theorem test_cmp_negative :
    phaseAfter 0x10#8 0xBF800000#32 0xC0000000#32 = some (.done ⟨4#32, 0#32, false⟩) := by decide

/-- V145: unordered. -/
theorem test_cmp_nan : phaseAfter 0x10#8 0xFF800000#32 0xFF800001#32 = some (.done ⟨8#32, 0#32, false⟩) := by decide

/-- V135: the two zeros are equal. -/
theorem test_eq_zeros : phaseAfter 0x11#8 0#32 0x80000000#32 = some (.done ⟨1#32, 0#32, false⟩) := by decide

/-- V143: a NaN is not equal to itself. -/
theorem test_ne_nan : phaseAfter 0x12#8 0x7FC00000#32 0x7FC00000#32 = some (.done ⟨1#32, 0#32, false⟩) := by decide

/-- V140. -/
theorem test_lt_minus_inf : phaseAfter 0x13#8 0xFF800000#32 0xFF7FFFFF#32 = some (.done ⟨1#32, 0#32, false⟩) := by
  decide

/-- V136. -/
theorem test_le_zeros : phaseAfter 0x14#8 0x80000000#32 0#32 = some (.done ⟨1#32, 0#32, false⟩) := by decide

/-- V144: no order with a NaN. -/
theorem test_gt_nan : phaseAfter 0x15#8 0x7FC00000#32 0x3F800000#32 = some (.done ⟨0#32, 0#32, false⟩) := by decide

/-- V139. -/
theorem test_ge_subnormal : phaseAfter 0x16#8 1#32 0#32 = some (.done ⟨1#32, 0#32, false⟩) := by decide

/-- V152: an illegal byte is answered in band. -/
theorem test_illegal_byte :
    phaseAfter 0x1F#8 0xFFFFFFFF#32 0xFFFFFFFF#32 = some (.done ⟨0#32, 0#32, true⟩) := by decide

/-- V203: the extension's `DIV.RUP` of -1/3. -/
theorem test_div_rup_extension : fdiv .rup 0xBF800000#32 0x40400000#32 = 0xBEAAAAAA#32 := by decide

/-! ### The handshake (spec/95_test_vectors.md, program P5) -/

/-- Input lines that offer `cmd a, b`. -/
def offer (cmd : Byte) (a b : Word) : Pins := { quietPins with reqValid := true, reqCmd := cmd, reqA := a, reqB := b }

/-- A state with the given phase, countdown and coming edges. -/
def stateOf (p : Phase) (k : Nat) (es : List Edge) : State := ⟨p, k, es, 0⟩

/-- P5, edge 1: the offered command is accepted. -/
theorem test_accept :
    step (stateOf .idle 0 [⟨offer 0x04#8 0x3F800000#32 0xBF800000#32, 1⟩]) =
      .next ⟨.busy ⟨0x04#8, 0x3F800000#32, 0xBF800000#32⟩, 1, [], 1⟩ := rfl

/-- P5, edge 2: with `LAT = 2` the next edge completes nothing, and the command on the request lines is not taken. -/
theorem test_busy_waits :
    step (stateOf (.busy ⟨0x04#8, 0x3F800000#32, 0xBF800000#32⟩) 1 [⟨offer 0x0C#8 0x3F800000#32 0x40400000#32, 5⟩]) =
      .next ⟨.busy ⟨0x04#8, 0x3F800000#32, 0xBF800000#32⟩, 0, [], 1⟩ := rfl

/-- P5, edge 5: the host takes the response. -/
theorem test_deliver :
    step (stateOf (.done ⟨0#32, 0#32, false⟩) 0 [⟨{ quietPins with rspReady := true }, 0⟩]) =
      .next ⟨.idle, 0, [], 1⟩ := rfl

/-- P5, edge 10: a reset in mid-command discards it and accepts nothing. -/
theorem test_reset_wins :
    step (stateOf (.busy ⟨0x0C#8, 0x3F800000#32, 0x40400000#32⟩) 3
        [⟨{ offer 0x10#8 0x3F800000#32 0x40000000#32 with rst := true, rspReady := true }, 0⟩]) =
      .next ⟨.idle, 0, [], 1⟩ := rfl

/-! ### For every statement with hypotheses, a state and operands that meet them -/

/-- `IDLE`, a reset edge with a command offered and a response asked for. -/
def resetting : State := stateOf .idle 0 [⟨{ offer 0x04#8 1#32 2#32 with rst := true, rspReady := true }, 0⟩]

/-- `IDLE` with `ADD` offered, then a quiet edge, then one that takes the response. -/
def offering : State :=
  stateOf .idle 0 [⟨offer 0x04#8 1#32 2#32, 0⟩, ⟨quietPins, 0⟩, ⟨{ quietPins with rspReady := true }, 0⟩]

/-- `BUSY` with `MUL` and two more edges to wait, none of them a reset. -/
def waiting : State :=
  stateOf (.busy ⟨0x08#8, 1#32, 2#32⟩) 2 [⟨quietPins, 0⟩, ⟨quietPins, 0⟩, ⟨quietPins, 0⟩]

/-- `BUSY` with `DIV`, the coming edge taking COMPLETE. -/
def completing : State := stateOf (.busy ⟨0x0C#8, 1#32, 2#32⟩) 0 [⟨quietPins, 0⟩]

/-- The same command completing in another state of the outside world. -/
def completingElsewhere : State :=
  ⟨.busy ⟨0x0C#8, 1#32, 2#32⟩, 0, [⟨offer 0xFF#8 3#32 4#32, 9⟩, ⟨quietPins, 0⟩], 7⟩

/-- `DONE`, the host taking the response at the coming edge or not. -/
def delivering (ready : Bool) : State :=
  stateOf (.done ⟨5#32, 0#32, false⟩) 0 [⟨{ quietPins with rspReady := ready }, 0⟩]

theorem test_witness_ResetEdgeDiscardsAndForgets : (pins resetting).rst = true := by decide

theorem test_witness_AcceptSamplesTheOfferedCommand_offer :
    offering.phase = .idle ∧ (pins offering).rst = false ∧ (pins offering).reqValid = true := by decide

theorem test_witness_AcceptSamplesTheOfferedCommand_noOffer :
    (stateOf .idle 0 [⟨quietPins, 0⟩]).phase = .idle ∧ (pins (stateOf .idle 0 [⟨quietPins, 0⟩])).rst = false ∧
    (pins (stateOf .idle 0 [⟨quietPins, 0⟩])).reqValid = false := by decide

theorem test_witness_AcceptSamplesTheOfferedCommand_busy :
    completing.schedule = ⟨quietPins, 0⟩ :: [] ∧ completing.phase ≠ .idle := by decide

theorem test_witness_CompleteComesAfterTheLatency_accept : eventAt offering = .accepted ⟨0x04#8, 1#32, 2#32⟩ := by
  decide

theorem test_witness_CompleteComesAfterTheLatency_busy :
    waiting.phase = .busy ⟨0x08#8, 1#32, 2#32⟩ ∧ ResetFree (waiting.slack + 1) waiting := by decide

theorem test_witness_CompleteComesAfterTheLatency_atOnce :
    completing.phase = .busy ⟨0x0C#8, 1#32, 2#32⟩ ∧ completing.slack = 0 ∧ ResetFree 1 completing := by decide

theorem test_witness_DeliverOrHoldTheResponse :
    (delivering true).phase = .done ⟨5#32, 0#32, false⟩ ∧ (pins (delivering true)).rst = false ∧
    (pins (delivering true)).rspReady = true ∧ (delivering false).phase = .done ⟨5#32, 0#32, false⟩ ∧
    (pins (delivering false)).rst = false ∧ (pins (delivering false)).rspReady = false := by decide

theorem test_witness_StepRunsTheDecodedInstruction :
    completing.phase = .busy ⟨0x0C#8, 1#32, 2#32⟩ ∧ completing.slack = 0 ∧ (pins completing).rst = false ∧
    decode ⟨0x0C#8, 1#32, 2#32⟩ = .instr (.div .rne 1#32 2#32) := by decide

theorem test_witness_ResponseDependsOnTheCommandOnly :
    completing ≠ completingElsewhere ∧ completing.phase = .busy ⟨0x0C#8, 1#32, 2#32⟩ ∧
    completingElsewhere.phase = .busy ⟨0x0C#8, 1#32, 2#32⟩ ∧ completing.slack = 0 ∧ completingElsewhere.slack = 0 ∧
    (pins completing).rst = false ∧ (pins completingElsewhere).rst = false := by decide

theorem test_witness_AcceptsAreThreeEdgesApart :
    ∃ t u, eventAt offering = .accepted ⟨0x04#8, 1#32, 2#32⟩ ∧ step offering = .next t ∧ eventAt t ≠ .reset ∧
      step t = .next u := by
  refine ⟨_, _, by decide, rfl, by decide, rfl⟩

/-- A whole command: accepted, answered and delivered in three edges. -/
theorem test_witness_TranscriptIsTheCommandsMapped :
    offering.phase = .idle ∧ ResetFree 3 offering ∧
    events 3 offering = [.accepted ⟨0x04#8, 1#32, 2#32⟩, .nothing, .delivered ⟨3#32, 0#32, false⟩] := by decide

theorem test_witness_EveryStepKeepsTheInvariant : ∃ t, (delivering false).Inv ∧ step (delivering false) = .next t :=
  ⟨_, ⟨rfl, by decide⟩, rfl⟩

/-- The invariant is not empty: an error response that carries a word breaks it. -/
theorem test_invariant_excludes : ¬ (stateOf (.done ⟨1#32, 0#32, true⟩) 0 []).Inv := fun h => absurd h.2 (by decide)

theorem test_witness_DecodeOfEncodeIsTheInstruction :
    (Instr.compose .rup 1#32 true 0x8000#16).wellFormedWith true = true ∧
    (Instr.add .rne 1#32 2#32).wellFormedWith false = true := by decide

theorem test_witness_EncodeOfDecodeIsTheCommand :
    decodeWith false ⟨0x03#8, 1#32, 0xFFFF8000#32⟩ = .instr (.compose .rne 1#32 true 0x8000#16) ∧
    opField 0x03#8 = 0x03#5 ∧ decodeWith true ⟨0x84#8, 1#32, 2#32⟩ = .instr (.add .rmm 1#32 2#32) ∧
    opField 0x84#8 ∉ [0x01#5, 0x02#5, 0x03#5] := by decide

/-- The bounds of the legal bytes: least, greatest, and the bytes beside them. -/
theorem test_witness_IllegalBytesAreAnsweredInBand :
    0x01#8 ∈ legalBytes false ∧ 0x16#8 ∈ legalBytes false ∧ 0x00#8 ∉ legalBytes false ∧ 0x17#8 ∉ legalBytes false ∧
    0x24#8 ∉ legalBytes false ∧ 0x8C#8 ∈ legalBytes true ∧ 0xA4#8 ∉ legalBytes true := by decide

theorem test_witness_IgnoredOperandBitsHaveNoEffect :
    opField 0x01#8 = 0x01#5 ∧ opField 0x02#8 = 0x02#5 ∧ opField 0x03#8 = 0x03#5 ∧
    (0x80000001#32).getLsbD 31 = (0xFFFF0001#32).getLsbD 31 ∧
    (0x80000001#32).extractLsb' 0 16 = (0xFFFF0001#32).extractLsb' 0 16 := by decide

theorem test_witness_EveryCommandWritesOnlyThePhase :
    ∃ t t', exec (.mul .rne 1#32 2#32) State.reset = .next t ∧ exec (.decomp 1#32) State.reset = .next t' ∧
      (∀ a, Instr.mul .rne 1#32 2#32 ≠ .decomp a) := ⟨_, _, rfl, rfl, fun _ h => by cases h⟩

/-- Each class at the bounds of its range: the clauses of the `CLASS` and `DECOMP` statements. -/
theorem test_witness_classes :
    IsZero 0x00000000#32 ∧ IsZero 0x80000000#32 ∧ IsSubnormal 0x00000001#32 ∧ IsSubnormal 0x007FFFFF#32 ∧
    IsNormal 0x00800000#32 ∧ IsNormal 0x7F7FFFFF#32 ∧ IsInf 0x7F800000#32 ∧ IsInf 0xFF800000#32 ∧
    IsNaN 0x7F800001#32 ∧ IsNaN 0xFFFFFFFF#32 := by decide

theorem test_witness_UnpackKeepsTheValue : IsFinite 0x7F7FFFFF#32 ∧ IsFinite 0x00000000#32 := by decide

theorem test_witness_NormaliseKeepsTheValue :
    (1 ≤ 1 ∧ 1 < 2 ^ 24 ∧ normalise (-126) 1 = (-149, 2 ^ 23)) ∧
    (1 ≤ 2 ^ 24 - 1 ∧ 2 ^ 24 - 1 < 2 ^ 24 ∧ 2 ^ 23 ≤ 2 ^ 24 - 1) := by decide

theorem test_witness_RoundPackRoundsCorrectly_exact :
    1 ≤ 3 ∧ (3 : ℚ) = ((3 : ℕ) : ℚ) * (2 : ℚ) ^ (0 : ℤ) := by norm_num

theorem test_witness_RoundPackRoundsCorrectly_sticky :
    1 ≤ 2 ^ 25 ∧ 26 ≤ bitlen (2 ^ 25) ∧ ((2 ^ 25 : ℕ) : ℚ) * (2 : ℚ) ^ (0 : ℤ) < 2 ^ 25 + 1 / 3 ∧
    (2 ^ 25 + 1 / 3 : ℚ) < (((2 ^ 25 : ℕ) : ℚ) + 1) * (2 : ℚ) ^ (0 : ℤ) :=
  ⟨by norm_num, by decide, by norm_num, by norm_num⟩

theorem test_witness_ShrJamKeepsTheSticky :
    2 ^ 27 - 1 < 2 ^ 27 ∧ shrJam (2 ^ 27 - 1) 0 = 2 ^ 27 - 1 ∧ shrJam (2 ^ 27 - 1) 26 = 1 ∧
    shrJam (2 ^ 27 - 1) 27 = 1 ∧ shrJam 0 27 = 0 := by decide

/-- The hypotheses of `x - x` in the statement on `SUB`, and of the sign clauses of `MUL` and `DIV`. -/
theorem test_witness_SubIsAddOfTheNegated : IsFinite 0x80000000#32 ∧ ¬ IsFinite 0x7F800000#32 := by decide

theorem test_witness_signs :
    ¬ IsNaN (fmul .rne 0x80000000#32 0x3F800000#32) ∧ ¬ IsNaN (fdiv .rne 0x3F800000#32 0x80000000#32) := by decide

theorem test_witness_DividerQuotientHasGuardBits :
    1 ≤ 1 ∧ 1 < 2 ^ 24 ∧ 1 ≤ 2 ^ 24 - 1 ∧ 2 ^ 24 - 1 < 2 ^ 24 := by decide

/-- Values in each order, the infinities among them: the clauses of the statement on `CMP`. -/
theorem test_witness_CmpReportsTheValueOrder :
    IsNaN 0x7FC00000#32 ∧ ¬ IsNaN 0xFF800000#32 ∧ ¬ IsNaN 0x7F800000#32 ∧
    extVal 0xFF800000#32 < extVal 0x7F800000#32 ∧ extVal 0x7F800000#32 = extVal 0x7F800000#32 := by
  refine ⟨by decide, by decide, by decide, ?_, rfl⟩
  have h1 : extVal 0xFF800000#32 = ⊥ := by
    have hi : IsInf 0xFF800000#32 := by decide
    have hs : signBit 0xFF800000#32 = true := by decide
    simp [extVal, hi, hs]
  have h2 : extVal 0x7F800000#32 = ((⊤ : WithTop ℚ) : WithBot (WithTop ℚ)) := by
    have hi : IsInf 0x7F800000#32 := by decide
    have hs : signBit 0x7F800000#32 = false := by decide
    simp [extVal, hi, hs]
  rw [h1, h2]
  exact WithBot.bot_lt_coe _

theorem test_witness_RelationIsATotalPreorder :
    rel 0xFF800000#32 0x80000000#32 ∈ [Rel.lt, Rel.eq] ∧ rel 0x80000000#32 0x00000000#32 ∈ [Rel.lt, Rel.eq] := by
  decide

theorem test_witness_RelationAgreesWithSub :
    ¬ IsNaN 0x00000001#32 ∧ ¬ IsNaN 0x7F800000#32 ∧
    ¬ (IsInf 0x00000001#32 ∧ IsInf 0x7F800000#32 ∧ signBit 0x00000001#32 = signBit 0x7F800000#32) := by decide

/-- 1.5 is its own correct rounding: the terms of the value laws are met by a concrete pattern. -/
theorem test_roundsTo_exact : RoundsTo .rne false (3 / 2) 0x3FC00000#32 := by
  refine ⟨0, 3 * 2 ^ 22, 0, by norm_num, by norm_num, by norm_num, by norm_num, by norm_num, ?_, ?_⟩
  · intro h
    norm_num [roundsUp] at h
  · intro _
    have he : expField 0x3FC00000#32 = 127#8 := by decide
    have hf : fracField 0x3FC00000#32 = 4194304#23 := by decide
    refine ⟨by decide, by decide, ?_⟩
    have hne : ¬ (127#8 = 0#8) := by decide
    norm_num [magnitude, he, hf, hne, roundsUp]

end Sys2Proof.Tests
end

section
/-! The handshake seen from the block: ACCEPT in `IDLE` and DELIVER in `DONE` (spec/10_state.md R10, R12). -/

namespace Sys2Proof.Machine

theorem pins_cons {s : State} {e : Edge} {es : List Edge} (h : s.schedule = e :: es) : pins s = e.pins :=
  congrArg Edge.pins (nextEdge_cons s e es h)

/-- Outside `IDLE` a clock edge reads only `rst` and `rsp_ready` of the input lines: states that become equal once
the edge has passed, and agree on these two lines, step alike (R10). -/
theorem clockEdge_congr_of_not_idle (ext : Bool) {s t : State} (htick : tick s = tick t)
    (hrst : (pins s).rst = (pins t).rst) (hready : (pins s).rspReady = (pins t).rspReady)
    (hp : s.phase ≠ .idle) : clockEdge ext s = clockEdge ext t := by
  have hphase : s.phase = t.phase := by simpa using congrArg State.phase htick
  have hslack : s.slack = t.slack := by simpa using congrArg State.slack htick
  cases hr : (pins s).rst with
  | true => rw [clockEdge_reset ext s hr, clockEdge_reset ext t (hrst ▸ hr), htick]
  | false =>
    cases hs : s.phase with
    | idle => exact absurd hs hp
    | busy c =>
      by_cases hz : s.slack = 0
      · rw [clockEdge_complete ext s c hr hs hz,
          clockEdge_complete ext t c (hrst ▸ hr) (hphase ▸ hs) (hslack ▸ hz), htick]
      · rw [clockEdge_wait ext s c hr hs hz,
          clockEdge_wait ext t c (hrst ▸ hr) (hphase ▸ hs) (hslack ▸ hz), htick]
    | done r =>
      rw [clockEdge_done ext s r hr hs, clockEdge_done ext t r (hrst ▸ hr) (hphase ▸ hs), htick, hready]

/-- An offer in `IDLE` is an accepted command, and the block becomes `BUSY` of the three sampled words. -/
theorem accept_of_offer {s : State} (hp : s.phase = .idle) (hr : (pins s).rst = false)
    (hv : (pins s).reqValid = true) :
    eventAt s = .accepted (offered (pins s)) ∧ ∃ t, step s = .next t ∧ t.phase = .busy (offered (pins s)) := by
  refine ⟨by simp [eventAt_idle s hr hp, hv], accept (nextEdge s) (tick s), ?_, rfl⟩
  simp [step, clockEdge_idle _ s hr hp, hv]

theorem step_idle_of_no_offer {s : State} (hp : s.phase = .idle) (hr : (pins s).rst = false)
    (hv : (pins s).reqValid = false) : step s = .next (tick s) := by
  simp [step, clockEdge_idle _ s hr hp, hv]

theorem step_done_of_ready {s : State} {r : Response} (hp : s.phase = .done r) (hr : (pins s).rst = false)
    (hv : (pins s).rspReady = true) : step s = .next (deliver (tick s)) := by
  simp [step, clockEdge_done _ s r hr hp, hv]

theorem step_done_of_not_ready {s : State} {r : Response} (hp : s.phase = .done r) (hr : (pins s).rst = false)
    (hv : (pins s).rspReady = false) : step s = .next (tick s) := by
  simp [step, clockEdge_done _ s r hr hp, hv]

/-- Settles O3: ACCEPT by the rule for an edge in `IDLE`; in the other phases the changed request lines are none of
those that `clockEdge_congr_of_not_idle` asks to agree. -/
theorem acceptSamplesTheOfferedCommand : Obligations.AcceptSamplesTheOfferedCommand := by
  intro s
  refine ⟨accept_of_offer, fun hp hr hv => ⟨tick s, step_idle_of_no_offer hp hr hv, hp⟩, ?_⟩
  intro e es v c a b hs hp
  refine clockEdge_congr_of_not_idle Config.rmExt ?_ ?_ ?_ hp
  · simp [tick, hs]
  · rw [pins_cons hs, pins_cons rfl]
  · rw [pins_cons hs, pins_cons rfl]

/-- Settles O5: the two values of `rsp_ready` at an edge in `DONE`. -/
theorem deliverOrHoldTheResponse : Obligations.DeliverOrHoldTheResponse := by
  intro s r hp hr
  refine ⟨(rspLines_eq_some_iff s r).2 hp, fun hv => ⟨?_, ?_⟩, fun hv => ?_⟩
  · simp [eventAt_done s r hr hp, hv]
  · exact ⟨deliver (tick s), step_done_of_ready hp hr hv, rfl⟩
  · exact ⟨tick s, step_done_of_not_ready hp hr hv, hp, (rspLines_eq_some_iff (tick s) r).2 hp⟩

end Sys2Proof.Machine
end

section
/-! COMPLETE answers with R37's table: what each instruction puts on the port, and which bytes the decoder gives an
instruction (spec/30_encoding.md R31, R32, R35, R37). -/

namespace Sys2Proof.Machine

/-- What an instruction puts on the response lines. -/
def responseOf : Instr → Response
  | .classify a => ⟨classWord a, 0#32, false⟩
  | .decomp a => ⟨decompY a, decompZ a, false⟩
  | .compose rm m sign e => ⟨compose rm m sign e, 0#32, false⟩
  | .add rm a b => ⟨fadd rm a b false, 0#32, false⟩
  | .sub rm a b => ⟨fadd rm a b true, 0#32, false⟩
  | .mul rm a b => ⟨fmul rm a b, 0#32, false⟩
  | .div rm a b => ⟨fdiv rm a b, 0#32, false⟩
  | .cmp a b => ⟨relWord (rel a b), 0#32, false⟩
  | .eq a b => ⟨truthWord (decide (rel a b = .eq)), 0#32, false⟩
  | .ne a b => ⟨truthWord (decide (rel a b ≠ .eq)), 0#32, false⟩
  | .lt a b => ⟨truthWord (decide (rel a b = .lt)), 0#32, false⟩
  | .le a b => ⟨truthWord (decide (rel a b = .lt ∨ rel a b = .eq)), 0#32, false⟩
  | .gt a b => ⟨truthWord (decide (rel a b = .gt)), 0#32, false⟩
  | .ge a b => ⟨truthWord (decide (rel a b = .gt ∨ rel a b = .eq)), 0#32, false⟩

theorem exec_eq_responseOf (i : Instr) (s : State) : exec i s = .next { s with phase := .done (responseOf i) } := by
  cases i <;> rfl

theorem toNat_mod_32_eq_opField (cmd : Byte) : (cmd % 32#8).toNat = (opField cmd).toNat := by
  simp [opField]

theorem toNat_shiftRight_5_eq_rmField (cmd : Byte) : (cmd >>> 5).toNat = (rmField cmd).toNat := by
  simp only [rmField, BitVec.extractLsb'_toNat, BitVec.toNat_ushiftRight, Nat.shiftRight_eq_div_pow]
  omega

/-- The mode that the decoder reads is the one R32 names for the byte. -/
theorem modeOf_of_decodeRm {ext : Bool} {cmd : Byte} {rm : Rm} (h : decodeRm ext (rmField cmd) = some rm) :
    modeOf cmd = rm := by
  obtain ⟨-, hcode⟩ := decodeRm_eq_some h
  rw [modeOf, toNat_shiftRight_5_eq_rmField, ← hcode]
  cases rm <;> rfl

theorem plainForm_eq_instr_iff {rm : BitVec 3} {i j : Instr} : plainForm rm i = .instr j ↔ rm.toNat = 0 ∧ i = j := by
  have hzero : rm.toNat = 0 ↔ rm = 0#3 := BitVec.toNat_inj (y := 0#3)
  by_cases h : rm = 0#3 <;> simp [plainForm, hzero, h]

theorem roundingForm_eq_instr_iff {ext : Bool} {rm : BitVec 3} {f : Rm → Instr} {j : Instr} :
    roundingForm ext rm f = .instr j ↔ ∃ m, decodeRm ext rm = some m ∧ f m = j := by
  cases h : decodeRm ext rm <;> simp [roundingForm, h]

/-- The modes that the decoder gives are those that `legal` accepts of a command that rounds (R32, R35). -/
theorem exists_decodeRm_eq_some_iff (ext : Bool) (rm : BitVec 3) :
    (∃ m, decodeRm ext rm = some m) ↔ (decide (rm.toNat = 0) || (ext && decide (rm.toNat ≤ 4))) = true := by
  rw [← Option.isSome_iff_exists]
  revert ext rm
  decide

/-- The listed bytes are the legal ones (R35). -/
theorem mem_legalBytes_iff (ext : Bool) (cmd : Byte) : cmd ∈ legalBytes ext ↔ legal ext cmd = true := by
  revert ext cmd
  decide

/-- The decoder gives an instruction for the legal bytes and no other (R35). -/
theorem exists_decodeWith_eq_instr_iff (ext : Bool) (c : Command) :
    (∃ i, decodeWith ext c = .instr i) ↔ legal ext c.cmd = true := by
  unfold decodeWith decodeFields
  split
  case h_15 => simp_all [legal]
  all_goals
    rename_i hop
    simp [legal, hop, plainForm_eq_instr_iff, roundingForm_eq_instr_iff, exists_decodeRm_eq_some_iff]

/-- R37's table answers an illegal byte with the error response. -/
theorem respondTo_of_not_legal {ext : Bool} {c : Command} (h : legal ext c.cmd = false) :
    respondTo ext c = ⟨0#32, 0#32, true⟩ := by
  simp [respondTo, mem_legalBytes_iff, h]

/-- R37's table gives a legal command the response of the instruction it decodes to. -/
theorem respondTo_of_decodeWith_instr {ext : Bool} {c : Command} {i : Instr} (h : decodeWith ext c = .instr i) :
    respondTo ext c = responseOf i := by
  have hlegal : legal ext c.cmd = true := (exists_decodeWith_eq_instr_iff ext c).1 ⟨i, h⟩
  unfold decodeWith decodeFields at h
  split at h
  case h_15 => cases h
  all_goals
    rename_i hop
    rw [respondTo, if_neg (not_not.2 ((mem_legalBytes_iff ext c.cmd).2 hlegal)), toNat_mod_32_eq_opField, hop]
    simp only [plainForm_eq_instr_iff, roundingForm_eq_instr_iff] at h
  case h_3 | h_4 | h_5 | h_6 | h_7 =>
    obtain ⟨m, hm, rfl⟩ := h
    rw [modeOf_of_decodeRm hm]
    rfl
  all_goals
    obtain ⟨-, rfl⟩ := h
    simp [responseOf, truthWord]

/-- COMPLETE answers every command with the response of R37's table and writes nothing but the phase. -/
theorem runCommand_eq_respondTo (ext : Bool) (c : Command) (s : State) :
    runCommand ext c s = .next { s with phase := .done (respondTo ext c) } := by
  cases h : decodeWith ext c with
  | instr i =>
    rw [runCommand, h, respondTo_of_decodeWith_instr h]
    exact exec_eq_responseOf i s
  | rejected why =>
    have hillegal : legal ext c.cmd = false := by
      simpa [h] using exists_decodeWith_eq_instr_iff ext c
    rw [runCommand, h, respondTo_of_not_legal hillegal]
    rfl

end Sys2Proof.Machine
end

section
/-! The transcript of a run: no edge without a reset loses, adds or reorders a response (spec/10_state.md R10 to R12,
spec/20_memory.md R27). -/

namespace Sys2Proof.Machine

/-- The responses the block still owes the host: that of the command it holds, or the one it offers. -/
@[simp] def Phase.owed : Phase → List Response
  | .idle => []
  | .busy c => [respondTo Config.rmExt c]
  | .done r => [r]

theorem length_owed_le_one (p : Phase) : p.owed.length ≤ 1 := by
  cases p <;> simp

/-- Every edge has a next state (R5, R72). -/
theorem exists_clockEdge_eq_next (ext : Bool) (s : State) : ∃ t, clockEdge ext s = .next t := by
  cases hr : (pins s).rst with
  | true => exact ⟨_, clockEdge_reset ext s hr⟩
  | false =>
    cases hp : s.phase with
    | idle => exact ⟨_, clockEdge_idle ext s hr hp⟩
    | busy c =>
      by_cases hz : s.slack = 0
      · exact ⟨_, (clockEdge_complete ext s c hr hp hz).trans (runCommand_eq_respondTo ext c (tick s))⟩
      · exact ⟨_, clockEdge_wait ext s c hr hp hz⟩
    | done r => exact ⟨_, clockEdge_done ext s r hr hp⟩

@[simp] theorem events_zero (s : State) : events 0 s = [] := rfl

theorem events_succ {s t : State} (h : step s = .next t) (n : ℕ) : events (n + 1) s = eventAt s :: events n t := by
  simp [events, h]

theorem acceptedIn_cons (e : Event) (es : List Event) : acceptedIn (e :: es) = acceptedIn [e] ++ acceptedIn es :=
  List.filterMap_append (l := [e])

theorem deliveredIn_cons (e : Event) (es : List Event) : deliveredIn (e :: es) = deliveredIn [e] ++ deliveredIn es :=
  List.filterMap_append (l := [e])

/-- One edge keeps the account: what was owed and what the edge accepts is what it delivers and what is owed
after it, in this order. -/
theorem step_keeps_account {s t : State} (hstep : step s = .next t) (hreset : eventAt s ≠ .reset) :
    s.phase.owed ++ (acceptedIn [eventAt s]).map (respondTo Config.rmExt) =
      deliveredIn [eventAt s] ++ t.phase.owed := by
  rcases clockEdge_cases hstep with ⟨hr, -⟩ | ⟨hr, hp, hv, rfl⟩ | ⟨hr, hp, hv, rfl⟩ | ⟨hr, c, hp, -, hrun⟩ |
    ⟨hr, c, hp, -, rfl⟩ | ⟨hr, r, hp, hv, rfl⟩ | ⟨hr, r, hp, hv, rfl⟩
  · exact absurd (eventAt_reset s hr) hreset
  · rw [eventAt_idle s hr hp, if_pos hv, hp]
    rfl
  · simp [eventAt_idle s hr hp, hv, hp, acceptedIn, deliveredIn]
  · rw [runCommand_eq_respondTo] at hrun
    injection hrun with hrun
    subst hrun
    simp [eventAt_busy s c hr hp, hp, acceptedIn, deliveredIn]
  · simp [eventAt_busy s c hr hp, hp, acceptedIn, deliveredIn]
  · simp [eventAt_done s r hr hp, hv, hp, acceptedIn, deliveredIn]
  · simp [eventAt_done s r hr hp, hv, hp, acceptedIn, deliveredIn]

/-- A run keeps the account: the responses owed at its start, then those of the commands it accepts, are the
delivered ones followed by what the last phase still owes. -/
theorem events_keep_account (n : ℕ) (s : State) (hfree : ResetFree n s) :
    ∃ p : Phase, s.phase.owed ++ (acceptedIn (events n s)).map (respondTo Config.rmExt) =
      deliveredIn (events n s) ++ p.owed := by
  induction n generalizing s with
  | zero => exact ⟨s.phase, by simp [acceptedIn, deliveredIn]⟩
  | succ n ih =>
    obtain ⟨t, hstep⟩ : ∃ t, step s = .next t := exists_clockEdge_eq_next Config.rmExt s
    rw [ResetFree, events_succ hstep, List.mem_cons, not_or] at hfree
    obtain ⟨hfirst, hrest⟩ := hfree
    obtain ⟨p, hp⟩ := ih t hrest
    refine ⟨p, ?_⟩
    rw [events_succ hstep, acceptedIn_cons, deliveredIn_cons, List.map_append, ← List.append_assoc,
      step_keeps_account hstep (Ne.symm hfirst), List.append_assoc, hp, List.append_assoc]

/-- Settles O10: an `IDLE` block owes nothing, so by `events_keep_account` the mapped commands are the delivered
responses followed by at most one that is still owed. -/
theorem transcriptIsTheCommandsMapped : Obligations.TranscriptIsTheCommandsMapped := by
  intro n s hidle hfree
  obtain ⟨p, hp⟩ := events_keep_account n s hfree
  rw [hidle, Phase.owed, List.nil_append] at hp
  have hlen := congrArg List.length hp
  rw [List.length_map, List.length_append] at hlen
  have howed := length_owed_le_one p
  refine ⟨?_, by omega, by omega⟩
  rw [hp, List.take_left]

end Sys2Proof.Machine
end

section
/-! Encoding and dispatch: the answer to every command byte (spec/30_encoding.md R35, R37). -/

namespace Sys2Proof.Machine

/-- A legal command never reports an error, whatever its operands (R34). -/
theorem responseOf_err (i : Instr) : (responseOf i).err = false := by
  cases i <;> rfl

/-- A legal byte is answered with `err = 0`, whatever the operands: R37's table gives it the response of the
instruction it decodes to. -/
theorem respondTo_err_of_legal {ext : Bool} {c : Command} (h : legal ext c.cmd = true) :
    (respondTo ext c).err = false := by
  obtain ⟨i, hi⟩ := (exists_decodeWith_eq_instr_iff ext c).2 h
  rw [respondTo_of_decodeWith_instr hi, responseOf_err]

/-- Settles O18, by the rule for COMPLETE's command. -/
theorem commandsAnswerByTheDispatchTable : Obligations.CommandsAnswerByTheDispatchTable :=
  runCommand_eq_respondTo

/-- Settles O16: the listed bytes are the legal ones and those the decoder accepts; by the rule for COMPLETE's command
the two answers are those of R37's table. -/
theorem illegalBytesAreAnsweredInBand : Obligations.IllegalBytesAreAnsweredInBand := by
  intro ext c s
  have hlist : c.cmd ∈ legalBytes ext ↔ legal ext c.cmd = true := mem_legalBytes_iff ext c.cmd
  rw [hlist, runCommand_eq_respondTo]
  refine ⟨Iff.rfl, exists_decodeWith_eq_instr_iff ext c, fun hlegal => ?_, fun hillegal => ?_⟩
  · refine ⟨(respondTo ext c).y, (respondTo ext c).z, ?_⟩
    rw [← respondTo_err_of_legal hlegal]
  · rw [respondTo_of_not_legal (Bool.eq_false_iff.2 hillegal)]

end Sys2Proof.Machine
end

section
/-! The shared numerics: `normalise` keeps the value, and `roundPack` is correct rounding
(spec/40_numerics_common.md R42, R44, R47, R48). -/

namespace Sys2Proof.Machine

/-! ### `normalise` (R42) -/

theorem normalise_fst (e : ℤ) (m : ℕ) : (normalise e m).1 = e - (24 - bitlen m : ℕ) := rfl

theorem normalise_snd (e : ℤ) (m : ℕ) : (normalise e m).2 = m * 2 ^ (24 - bitlen m) := Nat.shiftLeft_eq ..

/-- The shifted significand has bit 23 set and no bit above it. -/
theorem normalise_snd_bounds (e : ℤ) {m : ℕ} (hpos : m ≠ 0) (hlt : m < 2 ^ 24) :
    2 ^ 23 ≤ (normalise e m).2 ∧ (normalise e m).2 < 2 ^ 24 := by
  have hlen : bitlen m ≤ 24 := bitlen_le_iff.2 hlt
  have hlen_pos : 0 < bitlen m := bitlen_pos hpos
  rw [normalise_snd]
  constructor
  · calc 2 ^ 23 = 2 ^ (bitlen m - 1) * 2 ^ (24 - bitlen m) := by rw [← pow_add]; congr 1; omega
      _ ≤ m * 2 ^ (24 - bitlen m) := Nat.mul_le_mul_right _ (two_pow_bitlen_le hpos)
  · calc m * 2 ^ (24 - bitlen m) < 2 ^ bitlen m * 2 ^ (24 - bitlen m) :=
          Nat.mul_lt_mul_of_pos_right (lt_two_pow_bitlen m) (by positivity)
      _ = 2 ^ 24 := by rw [← pow_add]; congr 1; omega

theorem normalise_value (e : ℤ) (m : ℕ) :
    ((normalise e m).2 : ℚ) * 2 ^ ((normalise e m).1 - 23) = (m : ℚ) * 2 ^ (e - 23) := by
  rw [normalise_fst, normalise_snd]
  push_cast
  rw [mul_assoc, ← zpow_natCast, ← zpow_add₀ two_ne_zero]
  congr 2
  ring

theorem normalise_of_normal (e : ℤ) {m : ℕ} (hbit : 2 ^ 23 ≤ m) : normalise e m = (e, m) := by
  have hlen : ¬ bitlen m ≤ 23 := fun h => absurd (bitlen_le_iff.1 h) (by omega)
  have hshift : 24 - bitlen m = 0 := by omega
  simp [normalise, hshift]

/-- The shift is at most 23. -/
theorem normalise_fst_ge {e : ℤ} {m : ℕ} (hpos : m ≠ 0) (he : -126 ≤ e) : -149 ≤ (normalise e m).1 := by
  have hlen_pos : 0 < bitlen m := bitlen_pos hpos
  rw [normalise_fst]
  omega

/-- Settles O25, by the rules for the two components of `normalise`. -/
theorem normaliseKeepsTheValue : Obligations.NormaliseKeepsTheValue := by
  intro e m hpos hlt
  have hm : m ≠ 0 := by omega
  obtain ⟨hlow, hhigh⟩ := normalise_snd_bounds e hm hlt
  exact ⟨hlow, hhigh, normalise_value e m, normalise_of_normal e, normalise_fst_ge hm⟩

/-! ### What `cut` discards, and the rounding decision on it (R44, R47) -/

/-- The guard bit of `c` stands for one half, and round and sticky for a rest of less than one half: together they
are the fraction `f` of a unit that the kept bits leave out. -/
def Cut.Discards (c : Cut) (f : ℚ) : Prop :=
  ∃ t : ℚ, 0 ≤ t ∧ t < 1 / 2 ∧ f = (if c.g then 1 / 2 else 0) + t ∧ ((c.r || c.st) = true ↔ 0 < t)

theorem Cut.Discards.bounds {c : Cut} {f : ℚ} (h : c.Discards f) : 0 ≤ f ∧ f < 1 := by
  obtain ⟨t, ht0, ht1, rfl, -⟩ := h
  split <;> constructor <;> linarith

/-- More than one half is discarded when the guard bit is set and round or sticky is. -/
theorem Cut.Discards.half_lt_iff {c : Cut} {f : ℚ} (h : c.Discards f) :
    1 / 2 < f ↔ (c.g && (c.r || c.st)) = true := by
  obtain ⟨t, -, ht1, rfl, hrest⟩ := h
  cases hg : c.g with
  | false => simpa using ht1.le
  | true => simpa using hrest.symm

/-- One half is discarded when the guard bit is set alone. -/
theorem Cut.Discards.eq_half_iff {c : Cut} {f : ℚ} (h : c.Discards f) :
    f = 1 / 2 ↔ (c.g && !(c.r || c.st)) = true := by
  obtain ⟨t, ht0, ht1, rfl, hrest⟩ := h
  cases hg : c.g with
  | false => simpa using ht1.ne
  | true =>
    rw [Bool.true_and, Bool.not_eq_true', ← Bool.not_eq_true, hrest, not_lt, if_pos rfl, add_eq_left]
    exact ⟨le_of_eq, fun h => le_antisymm h ht0⟩

/-- At least one half is discarded when the guard bit is set. -/
theorem Cut.Discards.half_le_iff {c : Cut} {f : ℚ} (h : c.Discards f) : 1 / 2 ≤ f ↔ c.g = true := by
  obtain ⟨t, ht0, ht1, rfl, -⟩ := h
  cases hg : c.g with
  | false => simpa using ht1
  | true => simpa using ht0

/-- Something is discarded when one of the three bits is set. -/
theorem Cut.Discards.pos_iff {c : Cut} {f : ℚ} (h : c.Discards f) : 0 < f ↔ (c.g || c.r || c.st) = true := by
  obtain ⟨t, ht0, -, rfl, hrest⟩ := h
  cases hg : c.g with
  | false => simpa using hrest.symm
  | true =>
    have hpos : 0 < 1 / 2 + t := by linarith
    simpa using hpos

/-- R44's decision on the guard, round and sticky bits is R48's on the fraction. -/
theorem roundInc_eq_roundsUp (rm : Rm) (s : Bool) {c : Cut} {f : ℚ} (h : c.Discards f) :
    roundInc rm s (c.k.testBit 0) c.g c.r c.st = roundsUp rm s c.k f := by
  cases rm with
  | rne =>
    simp only [roundInc, roundsUp, h.half_lt_iff, h.eq_half_iff, Nat.testBit_zero, Bool.decide_eq_true]
    cases c.g <;> cases c.r <;> cases c.st <;> simp
  | rtz => rfl
  | rdn => simp only [roundInc, roundsUp, h.pos_iff, Bool.decide_eq_true]
  | rup => simp only [roundInc, roundsUp, h.pos_iff, Bool.decide_eq_true]
  | rmm => simp only [roundInc, roundsUp, h.half_le_iff, Bool.decide_eq_true]

/-- The low `n + 1` bits are the low `n` bits and bit `n`. -/
theorem mod_two_pow_succ_eq_add_testBit (M n : ℕ) :
    M % 2 ^ (n + 1) = M % 2 ^ n + 2 ^ n * (M.testBit n).toNat := by
  rw [Nat.mod_pow_succ, Nat.toNat_testBit]

/-- Round and sticky together say whether any bit below the guard bit is set. -/
theorem cut_round_or_sticky (n M : ℕ) (st : Bool) :
    ((cut (n + 1 : ℕ) M st).r || (cut (n + 1 : ℕ) M st).st) = true ↔ M % 2 ^ n ≠ 0 ∨ st = true := by
  rw [cut_of_pos (n + 1) M st n.succ_pos]
  match n with
  | 0 => simp [Nat.mod_one]
  | 1 => simp [Nat.mod_one]
  | n + 2 =>
    have hbits : M % 2 ^ (n + 2) ≠ 0 ↔ M.testBit (n + 1) = true ∨ M % 2 ^ (n + 1) ≠ 0 := by
      rw [mod_two_pow_succ_eq_add_testBit M (n + 1)]
      cases M.testBit (n + 1) <;> simp
    rw [hbits]
    simp [or_assoc]

/-- A cut of `n + 1` bits off `M + δ` keeps `M / 2^(n+1)` and discards the rest: the guard bit is bit `n` of `M`, and
the bits below it with `δ` make less than one half. -/
theorem cut_discards_of_pos (n M : ℕ) {st : Bool} {δ : ℚ} (hδ0 : 0 ≤ δ) (hδ1 : δ < 1) (hst : st = true ↔ 0 < δ) :
    (cut (n + 1 : ℕ) M st).Discards (((M % 2 ^ (n + 1) : ℕ) + δ) / 2 ^ (n + 1)) := by
  have hguard : (cut (n + 1 : ℕ) M st).g = M.testBit n := by rw [cut_of_pos (n + 1) M st n.succ_pos]; rfl
  have hpow : (0 : ℚ) < 2 ^ (n + 1) := by positivity
  have hlow : ((M % 2 ^ n : ℕ) : ℚ) + 1 ≤ 2 ^ n := mod_cast Nat.mod_lt M (Nat.two_pow_pos n)
  have hlow0 : (0 : ℚ) ≤ (M % 2 ^ n : ℕ) := Nat.cast_nonneg _
  refine ⟨((M % 2 ^ n : ℕ) + δ) / 2 ^ (n + 1), by positivity, ?_, ?_, ?_⟩
  · rw [div_lt_iff₀ hpow, pow_succ]
    linarith
  · rw [hguard, mod_two_pow_succ_eq_add_testBit]
    cases M.testBit n with
    | false => simp
    | true =>
      rw [if_pos rfl, Bool.toNat_true, mul_one]
      push_cast
      field_simp
      ring
  · rw [cut_round_or_sticky, hst, div_pos_iff_of_pos_right hpow, ← Nat.pos_iff_ne_zero, ← Nat.cast_pos (α := ℚ)]
    exact ⟨fun h => h.elim (add_pos_of_pos_of_nonneg · hδ0) (add_pos_of_nonneg_of_pos hlow0 ·),
      fun h => (lt_or_lt_of_add_lt_add (by simpa using h))⟩

/-- Cutting `sh` bits off `M + δ` keeps the integer part of `(M + δ) / 2^sh` and discards its fraction. -/
theorem cut_spec {sh : ℤ} (M : ℕ) {st : Bool} {δ : ℚ} (hδ0 : 0 ≤ δ) (hδ1 : δ < 1) (hst : st = true ↔ 0 < δ)
    (hsh : st = true → 0 < sh) :
    ∃ f : ℚ, (cut sh M st).Discards f ∧ (M : ℚ) + δ = ((cut sh M st).k + f) * 2 ^ sh := by
  rcases le_or_gt sh 0 with hle | hgt
  · obtain ⟨n, rfl⟩ : ∃ n : ℕ, sh = -(n : ℤ) := ⟨(-sh).toNat, by omega⟩
    have hδ : δ = 0 := le_antisymm (not_lt.1 fun h => absurd (hsh (hst.2 h)) hle.not_gt) hδ0
    refine ⟨0, ?_, ?_⟩ <;> rw [cut_of_nonpos M st hle]
    · exact ⟨0, by simp⟩
    · simp [hδ]
  · obtain ⟨n, rfl⟩ : ∃ n : ℕ, sh = ((n + 1 : ℕ) : ℤ) := ⟨(sh - 1).toNat, by omega⟩
    refine ⟨_, cut_discards_of_pos n M hδ0 hδ1 hst, ?_⟩
    have hkept : (cut (n + 1 : ℕ) M st).k = M / 2 ^ (n + 1) := by rw [cut_of_pos (n + 1) M st n.succ_pos]
    have hpow : (2 : ℚ) ^ (n + 1) ≠ 0 := by positivity
    have hdiv : ((M / 2 ^ (n + 1) : ℕ) : ℚ) * 2 ^ (n + 1) + (M % 2 ^ (n + 1) : ℕ) = M := by
      exact_mod_cast Nat.div_add_mod' M (2 ^ (n + 1))
    rw [hkept, zpow_natCast, add_mul, div_mul_cancel₀ _ hpow, ← add_assoc, hdiv]

/-! ### Packing (R38, R39, R47) -/

/-- The magnitude of a packed pattern below the normal range (R39). -/
theorem magnitude_pack_subnormal (s : Bool) {K : ℕ} (hK : K < 2 ^ 23) :
    magnitude (pack s 0 K) = (K : ℚ) * 2 ^ (-149 : ℤ) := by
  rw [magnitude, expField_pack, fracField_pack, if_pos rfl, BitVec.toNat_ofNat, Nat.mod_eq_of_lt hK]

/-- The magnitude of a packed normal pattern, whose mantissa field drops bit 23 of the significand (R39). -/
theorem magnitude_pack_normal (s : Bool) {E K : ℕ} (hpos : E ≠ 0) (hE : E < 2 ^ 8) (hlow : 2 ^ 23 ≤ K)
    (hhigh : K < 2 ^ 24) : magnitude (pack s E K) = (K : ℚ) * 2 ^ ((E : ℤ) - 127 - 23) := by
  have hexp : (BitVec.ofNat 8 E).toNat = E := by rw [BitVec.toNat_ofNat, Nat.mod_eq_of_lt hE]
  have hne : BitVec.ofNat 8 E ≠ 0#8 := fun h => hpos (hexp ▸ congrArg BitVec.toNat h)
  have hsig : 2 ^ 23 + K % 2 ^ 23 = K := by omega
  have hfrac : (2 ^ 23 : ℚ) + (K % 2 ^ 23 : ℕ) = K := by exact_mod_cast hsig
  rw [magnitude, expField_pack, fracField_pack, if_neg hne, BitVec.toNat_ofNat, hexp, hfrac]

theorem isFinite_pack (s : Bool) {E : ℕ} (F : ℕ) (hE : E < 255) : IsFinite (pack s E F) := by
  intro h
  rw [expField_pack] at h
  have hval : E % 2 ^ 8 = 255 := congrArg BitVec.toNat h
  omega

/-- A finite pattern of sign `s` and magnitude `w` below `2^128` is the one that `PatternOf` asks for. -/
theorem patternOf_of_finite {rm : Rm} {s : Bool} {w : ℚ} {y : Word} (hw : w < 2 ^ 128) (hfin : IsFinite y)
    (hsign : signBit y = s) (hmag : magnitude y = w) : PatternOf rm s w y :=
  ⟨fun h => absurd hw (not_lt.2 h), fun _ => ⟨hfin, hsign, hmag⟩⟩

/-- Up to the binade of `2^127` a significand of 24 bits stays below `2^128`. -/
theorem scaled_lt_two_pow_128 {K : ℕ} {et : ℤ} (hK : K < 2 ^ 24) (het : et ≤ 127) :
    (K : ℚ) * 2 ^ (et - 23) < 2 ^ 128 := by
  have hsig : (K : ℚ) < 2 ^ 24 := mod_cast hK
  calc (K : ℚ) * 2 ^ (et - 23) < 2 ^ 24 * 2 ^ (et - 23) := by gcongr
    _ ≤ 2 ^ 24 * 2 ^ (104 : ℤ) := by gcongr <;> [norm_num; omega]
    _ = 2 ^ 128 := by norm_num

/-- A significand of 24 bits or less in the binade of `et` that carries no further is packed at its value, or is the
overflow result. -/
theorem patternOf_packRounded_of_lt (rm : Rm) (s : Bool) {K : ℕ} {et : ℤ} (hK : K < 2 ^ 24) (het : -126 ≤ et)
    (hbit : et = -126 ∨ 2 ^ 23 ≤ K) :
    PatternOf rm s ((K : ℚ) * 2 ^ (et - 23)) (packRounded rm s K et) := by
  rcases lt_or_ge K (2 ^ 23) with hsub | hnorm
  · obtain rfl : et = -126 := hbit.resolve_right (by omega)
    rw [packRounded_of_subnormal rm s K _ hsub]
    exact patternOf_of_finite (scaled_lt_two_pow_128 hK (by norm_num)) (isFinite_pack s K (by norm_num))
      (signBit_pack s 0 K) (magnitude_pack_subnormal s hsub)
  rcases le_or_gt et 127 with hfin | hover
  · rw [packRounded_of_normal rm s K et hnorm hK hfin]
    refine patternOf_of_finite (scaled_lt_two_pow_128 hK hfin) (isFinite_pack s K (by omega)) (signBit_pack s _ K) ?_
    rw [magnitude_pack_normal s (by omega) (by omega) hnorm hK, Int.toNat_of_nonneg (by omega), add_sub_cancel_right]
  · rw [packRounded_overflow rm s K et hnorm hK hover, overflow_eq_pattern]
    refine ⟨fun _ => rfl, fun h => absurd h (not_lt.2 ?_)⟩
    calc (2 : ℚ) ^ 128 = 2 ^ 23 * 2 ^ (105 : ℤ) := by norm_num
      _ ≤ (K : ℚ) * 2 ^ (et - 23) := by
          gcongr
          · exact_mod_cast hnorm
          · norm_num
          · omega

/-- The same for a rounded significand: one that carried to `2^24` is `2^23` in the next binade. -/
theorem patternOf_packRounded (rm : Rm) (s : Bool) {K : ℕ} {et : ℤ} (hK : K ≤ 2 ^ 24) (het : -126 ≤ et)
    (hbit : et = -126 ∨ 2 ^ 23 ≤ K) :
    PatternOf rm s ((K : ℚ) * 2 ^ (et - 23)) (packRounded rm s K et) := by
  rcases hK.lt_or_eq with hlt | rfl
  · exact patternOf_packRounded_of_lt rm s hlt het hbit
  · have hcarry : ((2 ^ 24 : ℕ) : ℚ) * 2 ^ (et - 23) = ((2 ^ 23 : ℕ) : ℚ) * 2 ^ (et + 1 - 23) := by
      rw [show et + 1 - 23 = et - 23 + 1 by ring, zpow_add_one₀ two_ne_zero]
      push_cast
      ring
    rw [packRounded_carry, hcarry]
    exact patternOf_packRounded_of_lt rm s (by norm_num) (by omega) (.inr le_rfl)

/-! ### `roundPack` is correct rounding (R48) -/

/-- The magnitude that R47 gives to the arguments `e`, `M`, `st`: `(M + δ) * 2^e` with `0 ≤ δ < 1`, and `δ` nonzero
exactly when the sticky bit is set. -/
theorem exists_excess {e : ℤ} {M : ℕ} {st : Bool} {V : ℚ} (hexact : st = false → V = (M : ℚ) * 2 ^ e)
    (hsticky : st = true → (M : ℚ) * 2 ^ e < V ∧ V < ((M : ℚ) + 1) * 2 ^ e) :
    ∃ δ : ℚ, 0 ≤ δ ∧ δ < 1 ∧ (st = true ↔ 0 < δ) ∧ V = (M + δ) * 2 ^ e := by
  cases st with
  | false => exact ⟨0, le_rfl, one_pos, by simp, by simpa using hexact rfl⟩
  | true =>
    obtain ⟨hlow, hhigh⟩ := hsticky rfl
    have hpow : (0 : ℚ) < 2 ^ e := by positivity
    have hpos : 0 < V / 2 ^ e - M := sub_pos.2 ((lt_div_iff₀ hpow).2 hlow)
    refine ⟨V / 2 ^ e - M, hpos.le, ?_, by simpa using hpos, ?_⟩
    · rw [sub_lt_iff_lt_add', div_lt_iff₀ hpow]
      exact hhigh
    · rw [add_sub_cancel, div_mul_cancel₀ V hpow.ne']

/-- `(M + δ) * 2^e` lies in the binade of `M`'s highest bit (R47). -/
theorem binade_of_bitlen (e : ℤ) {M : ℕ} {δ : ℚ} (hM : M ≠ 0) (hδ0 : 0 ≤ δ) (hδ1 : δ < 1) :
    (2 : ℚ) ^ (e + bitlen M - 1) ≤ (M + δ) * 2 ^ e ∧ (M + δ) * 2 ^ e < (2 : ℚ) ^ (e + bitlen M - 1 + 1) := by
  have hpos : 0 < bitlen M := bitlen_pos hM
  have hlow : (2 : ℚ) ^ (bitlen M - 1) ≤ M := mod_cast two_pow_bitlen_le hM
  have hhigh : (M : ℚ) + 1 ≤ 2 ^ bitlen M := mod_cast lt_two_pow_bitlen M
  constructor
  · calc (2 : ℚ) ^ (e + bitlen M - 1) = 2 ^ (bitlen M - 1) * 2 ^ e := by
          rw [← zpow_natCast, ← zpow_add₀ two_ne_zero]; congr 1; omega
      _ ≤ (M + δ) * 2 ^ e := by gcongr; linarith
  · calc (M + δ) * 2 ^ e < 2 ^ bitlen M * 2 ^ e := by gcongr; linarith
      _ = (2 : ℚ) ^ (e + bitlen M - 1 + 1) := by
          rw [← zpow_natCast, ← zpow_add₀ two_ne_zero]; congr 1; omega

/-- Below the next binade the kept bits are at most 24 (R47). -/
theorem kept_lt {k : ℕ} {f : ℚ} {et : ℤ} (hf : 0 ≤ f) (h : ((k : ℚ) + f) * 2 ^ (et - 23) < 2 ^ (et + 1)) :
    k < 2 ^ 24 := by
  have hsplit : (2 : ℚ) ^ (et + 1) = 2 ^ 24 * 2 ^ (et - 23) := by
    rw [← zpow_natCast, ← zpow_add₀ two_ne_zero]; congr 1; push_cast; ring
  have hsum : (k : ℚ) + f < 2 ^ 24 := lt_of_mul_lt_mul_right (hsplit ▸ h) (by positivity)
  have hk : (k : ℚ) < 2 ^ 24 := by linarith
  exact_mod_cast hk

/-- In the binade of `et` itself the kept bits have bit 23 set (R47). -/
theorem le_kept {k : ℕ} {f : ℚ} {et : ℤ} (hf : f < 1) (h : (2 : ℚ) ^ et ≤ ((k : ℚ) + f) * 2 ^ (et - 23)) :
    2 ^ 23 ≤ k := by
  have hsplit : (2 : ℚ) ^ et = 2 ^ 23 * 2 ^ (et - 23) := by
    rw [← zpow_natCast, ← zpow_add₀ two_ne_zero]; congr 1; push_cast; ring
  have hsum : (2 : ℚ) ^ 23 ≤ k + f := le_of_mul_le_mul_right (hsplit ▸ h) (by positivity)
  have hk : (2 : ℚ) ^ 23 < (k + 1 : ℕ) := by push_cast; linarith
  exact Nat.lt_succ_iff.1 (by exact_mod_cast hk)

/-- The rounding step of R47 on the cut `c` of the binade of `E`, as the choice that R48 makes between `c.k` and its
successor. -/
theorem roundPack_eq_of_discards (rm : Rm) (s : Bool) {e E : ℤ} {M : ℕ} {st : Bool} {c : Cut} {f : ℚ}
    (hE : e + bitlen M - 1 = E) (hc : cut (max E (-126) - 23 - e) M st = c) (hf : c.Discards f) :
    roundPack rm s e M st = packRounded rm s (if roundsUp rm s c.k f then c.k + 1 else c.k) (max E (-126)) := by
  have hround : c.k + (roundInc rm s (c.k.testBit 0) c.g c.r c.st).toNat =
      if roundsUp rm s c.k f then c.k + 1 else c.k := by
    rw [roundInc_eq_roundsUp rm s hf]
    cases roundsUp rm s c.k f <;> rfl
  rw [← hround]
  subst hE hc
  rfl

/-- `roundPack` rounds `(M + δ) * 2^e` correctly when the sticky bit says whether `δ` is nonzero, and a set one comes
with at least 26 bits of `M`. -/
theorem roundPack_roundsTo (rm : Rm) (s : Bool) (e : ℤ) {M : ℕ} {st : Bool} {δ : ℚ} (hM : M ≠ 0) (hδ0 : 0 ≤ δ)
    (hδ1 : δ < 1) (hst : st = true ↔ 0 < δ) (hlen : st = true → 26 ≤ bitlen M) :
    RoundsTo rm s ((M + δ) * 2 ^ e) (roundPack rm s e M st) := by
  obtain ⟨hlow, hhigh⟩ := binade_of_bitlen e hM hδ0 hδ1
  obtain ⟨E, hE⟩ : ∃ E : ℤ, e + bitlen M - 1 = E := ⟨_, rfl⟩
  rw [hE] at hlow hhigh
  have hshift : st = true → 0 < max E (-126) - 23 - e := fun h => by have := hlen h; omega
  obtain ⟨f, hf, hsplit⟩ := cut_spec M hδ0 hδ1 hst hshift
  obtain ⟨c, hc⟩ : ∃ c, cut (max E (-126) - 23 - e) M st = c := ⟨_, rfl⟩
  rw [hc] at hf hsplit
  obtain ⟨hf0, hf1⟩ := hf.bounds
  have hvalue : ((M : ℚ) + δ) * 2 ^ e = (c.k + f) * 2 ^ (max E (-126) - 23) := by
    rw [hsplit, mul_assoc, ← zpow_add₀ two_ne_zero, sub_add_cancel]
  have hk_lt : c.k < 2 ^ 24 :=
    kept_lt hf0 (hvalue ▸ hhigh.trans_le (zpow_le_zpow_right₀ one_le_two (by omega)))
  have hk_bit : max E (-126) = -126 ∨ 2 ^ 23 ≤ c.k := by
    rcases le_total E (-126) with hsmall | hlarge
    · exact .inl (max_eq_right hsmall)
    · refine .inr (le_kept (et := max E (-126)) hf1 ?_)
      rwa [← hvalue, max_eq_left hlarge]
  refine ⟨E, c.k, f, hlow, hhigh, hf0, hf1, hvalue, ?_⟩
  rw [roundPack_eq_of_discards rm s hE hc hf]
  exact patternOf_packRounded rm s (by split <;> omega) (le_max_right E (-126))
    (hk_bit.imp_right fun h => by split <;> omega)

/-- Settles O26: `V` is `(M + δ) * 2^e` for the `δ` of `exists_excess`. -/
theorem roundPackRoundsCorrectly : Obligations.RoundPackRoundsCorrectly := by
  intro rm s e M st V hM hexact hsticky
  obtain ⟨δ, hδ0, hδ1, hst, rfl⟩ := exists_excess hexact fun h => (hsticky h).2
  exact roundPack_roundsTo rm s e (by omega) hδ0 hδ1 hst fun h => (hsticky h).1

end Sys2Proof.Machine
end

section
/-! The bit codec: `CLASS`, `DECOMP`, `COMPOSE`, and the round trip through the last two
(spec/41_bit_codec.md R50 to R53). -/

namespace Sys2Proof.Machine

/-! ### The command byte, the SE word and the unpacked fields (R30, R33, R41) -/

/-- A command byte written from its fields selects by them (R30). -/
theorem decodeWith_cmdByte (ext : Bool) (rm : BitVec 3) (op : BitVec 5) (a b : Word) :
    decodeWith ext ⟨cmdByte rm op, a, b⟩ = decodeFields ext op rm a b := by
  rw [decodeWith, opField_cmdByte, rmField_cmdByte]

@[simp] theorem seWord_zeros (sign : Bool) (cls : BitVec 3) (e : BitVec 16) :
    (seWord sign cls e).extractLsb' 19 12 = 0#12 := by
  apply BitVec.eq_of_getLsbD_eq
  intro i hi
  rw [BitVec.getLsbD_extractLsb', getLsbD_seWord]
  simp [show ¬ 19 + i < 16 by omega, show ¬ 19 + i < 19 by omega, show 19 + i ≠ 31 by omega]

@[simp] theorem seWord_code (sign : Bool) (cls : BitVec 3) (e : BitVec 16) :
    (seWord sign cls e).extractLsb' 16 3 = cls := by
  apply BitVec.eq_of_getLsbD_eq
  intro i hi
  rw [BitVec.getLsbD_extractLsb', getLsbD_seWord]
  simp [hi, show 16 + i < 19 by omega]

/-- `unpack` of an infinity or a NaN: the exponent 128 stands for the biased exponent 255 (R41). -/
theorem unpack_of_exp_max {x : Word} (h : expField x = 255#8) :
    (unpack x).e = 128 ∧ (unpack x).m = 2 ^ 23 + (fracField x).toNat := by
  obtain ⟨he, hm⟩ := unpack_of_exp_ne_zero (x := x) (by rw [h]; decide)
  exact ⟨by rw [he, h]; rfl, hm⟩

/-- `unpack` puts the mantissa in its place (R41). -/
theorem unpack_aligned (x : Word) : (unpack x).e = -126 ∨ 2 ^ 23 ≤ (unpack x).m := by
  by_cases hexp : expField x = 0#8
  · exact .inl (unpack_of_exp_zero hexp).1
  · exact .inr (by rw [(unpack_of_exp_ne_zero hexp).2]; omega)

/-- Only an infinity or a NaN has the exponent 128 (R41). -/
theorem unpack_e_le_of_finite {x : Word} (hfin : IsFinite x) : (unpack x).e ≤ 127 := by
  by_cases hexp : expField x = 0#8
  · rw [(unpack_of_exp_zero hexp).1]
    decide
  · have hE_ne : (expField x).toNat ≠ 255 := fun h => hfin (BitVec.eq_of_toNat_eq h)
    rw [(unpack_of_exp_ne_zero hexp).1]
    omega

/-! ### `CLASS` (R50) -/

theorem decode_classify (a b : Word) : decode ⟨0x01#8, a, b⟩ = .instr (.classify a) :=
  decodeWith_cmdByte Config.rmExt 0#3 0x01#5 a b

/-- The bits of a class word: class code, 28 zeros, sign. -/
theorem getLsbD_classWord (a : Word) (i : ℕ) :
    (classWord a).getLsbD i = if i < 3 then (classify a).code.getLsbD i else decide (i = 31) && signBit a := by
  simp only [classWord, BitVec.getLsbD_append, BitVec.getLsbD_ofBool, BitVec.getLsbD_zero]
  by_cases hcode : i < 3
  · simp [hcode]
  · by_cases hzeros : i < 31
    · simp [hcode, show i - 3 < 28 by omega, show i ≠ 31 by omega]
    · simp [hcode, show ¬ i - 3 < 28 by omega, show i - 3 - 28 = 0 ↔ i = 31 by omega]

@[simp] theorem classWord_sign (a : Word) : (classWord a).getLsbD 31 = signBit a := by
  rw [getLsbD_classWord]
  rfl

@[simp] theorem classWord_zeros (a : Word) : (classWord a).extractLsb' 3 28 = 0#28 := by
  apply BitVec.eq_of_getLsbD_eq
  intro i hi
  rw [BitVec.getLsbD_extractLsb', getLsbD_classWord]
  simp [show 3 + i ≠ 31 by omega]

@[simp] theorem classWord_code (a : Word) : (classWord a).extractLsb' 0 3 = (classify a).code := by
  apply BitVec.eq_of_getLsbD_eq
  intro i hi
  rw [BitVec.getLsbD_extractLsb', getLsbD_classWord]
  simp [hi]

/-- Settles O20, by the three parts of the class word; each class is the one `classify` finds. -/
theorem classReportsSignAndClass : Obligations.ClassReportsSignAndClass := by
  intro a b s
  refine ⟨decode_classify a b, classWord a, rfl, classWord_sign a, classWord_zeros a, ?_⟩
  simp only [classWord_code, ← classify_eq_zero_iff, ← classify_eq_subnormal_iff, ← classify_eq_normal_iff,
    ← classify_eq_infinity_iff, ← classify_eq_nan_iff]
  refine ⟨?_, ?_, ?_, ?_, ?_⟩ <;> (intro hclass; rw [hclass]; rfl)

/-! ### `DECOMP` (R51) -/

theorem decode_decomp (a b : Word) : decode ⟨0x02#8, a, b⟩ = .instr (.decomp a) :=
  decodeWith_cmdByte Config.rmExt 0#3 0x02#5 a b

/-- The mantissa word holds the mantissa in full. -/
@[simp] theorem decompY_toNat (a : Word) : (decompY a).toNat = (unpack a).m := by
  have hm := unpack_m_lt a
  rw [decompY, BitVec.toNat_ofNat, Nat.mod_eq_of_lt (by omega)]

@[simp] theorem decompZ_sign (a : Word) : (decompZ a).getLsbD 31 = signBit a := by
  rw [decompZ, unpack_sign]
  exact seSign_seWord ..

@[simp] theorem decompZ_zeros (a : Word) : (decompZ a).extractLsb' 19 12 = 0#12 := seWord_zeros ..

@[simp] theorem decompZ_code (a : Word) : (decompZ a).extractLsb' 16 3 = (classify a).code := by
  rw [decompZ, seWord_code, unpack_cls]

@[simp] theorem decompZ_exp (a : Word) : (decompZ a).extractLsb' 0 16 = BitVec.ofInt 16 (unpack a).e :=
  seExp_seWord ..

/-- The exponent field holds the exponent in full, in two's complement. -/
@[simp] theorem toInt_ofInt_unpack_e (a : Word) : (BitVec.ofInt 16 (unpack a).e).toInt = (unpack a).e := by
  obtain ⟨hlow, hhigh⟩ := unpack_e_range a
  exact BitVec.toInt_ofInt_eq_self (by norm_num) (by omega) (by omega)

/-- Settles O21, by the parts of the two words and what `unpack` answers in each class. -/
theorem decompGivesSignExponentMantissa : Obligations.DecompGivesSignExponentMantissa := by
  intro a b s
  refine ⟨decode_decomp a b, decompY a, decompZ a, rfl, decompZ_sign a, decompZ_zeros a, ?_, ?_, ?_, ?_, ?_⟩ <;>
    rw [decompZ_code, decompZ_exp]
  · rintro ⟨hexp, hfrac⟩
    obtain ⟨he, hm⟩ := unpack_of_exp_zero hexp
    rw [decompY, he, hm, hfrac, (classify_eq_zero_iff a).2 ⟨hexp, hfrac⟩]
    exact ⟨rfl, rfl, rfl⟩
  · rintro ⟨hexp, hfrac⟩
    obtain ⟨he, hm⟩ := unpack_of_exp_zero hexp
    rw [decompY_toNat, he, hm, (classify_eq_subnormal_iff a).2 ⟨hexp, hfrac⟩]
    exact ⟨rfl, rfl, rfl⟩
  · rintro ⟨hlow, hhigh⟩
    obtain ⟨he, hm⟩ := unpack_of_exp_ne_zero hlow
    rw [decompY_toNat, toInt_ofInt_unpack_e, he, hm, (classify_eq_normal_iff a).2 ⟨hlow, hhigh⟩]
    exact ⟨rfl, rfl, rfl⟩
  · rintro ⟨hexp, hfrac⟩
    obtain ⟨he, hm⟩ := unpack_of_exp_max hexp
    rw [decompY, he, hm, hfrac, (classify_eq_infinity_iff a).2 ⟨hexp, hfrac⟩]
    exact ⟨rfl, rfl, rfl⟩
  · rintro ⟨hexp, hfrac⟩
    obtain ⟨he, hm⟩ := unpack_of_exp_max hexp
    rw [decompY_toNat, he, hm, (classify_eq_nan_iff a).2 ⟨hexp, hfrac⟩]
    exact ⟨rfl, rfl, rfl⟩

/-! ### `COMPOSE` (R52) -/

theorem decode_compose (m b : Word) :
    decode ⟨0x03#8, m, b⟩ = .instr (.compose .rne m (b.getLsbD 31) (b.extractLsb' 0 16)) :=
  decodeWith_cmdByte Config.rmExt 0#3 0x03#5 m b

/-- The image of biased exponent 255 is packed as given. -/
theorem compose_of_code (rm : Rm) {m : Word} (sign : Bool) {ef : BitVec 16}
    (h : ef.toInt = 128 ∧ 0x800000 ≤ m.toNat ∧ m.toNat ≤ 0xFFFFFF) :
    compose rm m sign ef = pack sign 0xFF m.toNat := by
  rw [compose, if_pos h]

/-- A zero mantissa is the zero of the given sign. -/
theorem compose_of_zero (rm : Rm) {m : Word} (sign : Bool) (ef : BitVec 16) (hm : m.toNat = 0) :
    compose rm m sign ef = packZero sign := by
  simp [compose, hm]

/-- Anything else is rounded. -/
theorem compose_of_round (rm : Rm) {m : Word} (sign : Bool) {ef : BitVec 16}
    (h : ¬ (ef.toInt = 128 ∧ 0x800000 ≤ m.toNat ∧ m.toNat ≤ 0xFFFFFF)) (hm : m.toNat ≠ 0) :
    compose rm m sign ef = roundPack rm sign (ef.toInt - 23) m.toNat false := by
  rw [compose, if_neg h, if_neg hm]

/-- `COMPOSE` answers by R52's table: in the last line its `roundPack` is correct rounding of `m * 2^(e-23)`. -/
theorem compose_composeTable (rm : Rm) (m : Word) (sign : Bool) (ef : BitVec 16) :
    ComposeTable rm m sign ef.toInt (compose rm m sign ef) := by
  unfold ComposeTable
  split_ifs with hcode hm
  · rw [compose_of_code rm sign hcode]
    refine ⟨signBit_pack .., expField_pack .., ?_⟩
    rw [fracField_pack, BitVec.extractLsb', Nat.shiftRight_zero]
  · rw [hm, compose_of_zero rm sign ef rfl, packZero_eq]
  · have hpos : m.toNat ≠ 0 := fun h => hm (BitVec.eq_of_toNat_eq h)
    rw [compose_of_round rm sign hcode hpos]
    exact roundPackRoundsCorrectly rm sign _ _ false _ (by omega) (fun _ => rfl) (by simp)

/-- Settles O22, by `compose_composeTable`. -/
theorem composeRoundsTheFields : Obligations.ComposeRoundsTheFields := by
  intro rm m b s
  exact ⟨decode_compose m b, fun sign e => ⟨compose rm m sign e, rfl, compose_composeTable rm m sign e⟩⟩

/-! ### The round trip (R53) -/

/-- A mantissa that is already in its place, with bit 23 set or the least exponent, is packed without rounding. -/
theorem roundPack_of_aligned (rm : Rm) (s : Bool) {e : ℤ} {m : ℕ} (hlt : m < 2 ^ 24) (he : -126 ≤ e)
    (hbit : e = -126 ∨ 2 ^ 23 ≤ m) : roundPack rm s (e - 23) m false = packRounded rm s m e := by
  have hlen : bitlen m ≤ 24 := bitlen_le_iff.2 hlt
  have hlen_normal : e = -126 ∨ 23 < bitlen m :=
    hbit.imp_right fun h => not_le.1 fun h' => absurd (bitlen_le_iff.1 h') h.not_gt
  have hbinade : max (e - 23 + bitlen m - 1) (-126) = e := by omega
  have hcut : cut 0 m false = ⟨m, false, false, false⟩ := by
    simpa using cut_of_nonpos m false le_rfl
  simp [roundPack, hbinade, hcut]

/-- `COMPOSE` of such a mantissa with an exponent below the code 128 packs it without rounding, a zero included. -/
theorem compose_of_aligned (rm : Rm) {m : Word} (sign : Bool) {ef : BitVec 16} (hlt : m.toNat < 2 ^ 24)
    (hlow : -126 ≤ ef.toInt) (hhigh : ef.toInt ≤ 127) (hbit : ef.toInt = -126 ∨ 2 ^ 23 ≤ m.toNat) :
    compose rm m sign ef = packRounded rm sign m.toNat ef.toInt := by
  by_cases hm : m.toNat = 0
  · rw [compose_of_zero rm sign ef hm, hm, packRounded_of_subnormal _ _ _ _ (by norm_num)]
    rfl
  · rw [compose_of_round rm sign (by omega) hm, roundPack_of_aligned rm sign hlt hlow hbit]

/-- Packing drops the implicit bit: the significand of a pattern with its sign and exponent field is the pattern. -/
theorem pack_significand (x : Word) :
    pack (signBit x) (expField x).toNat (2 ^ 23 + (fracField x).toNat) = x := by
  apply word_ext
  · exact signBit_pack ..
  · rw [expField_pack, BitVec.ofNat_toNat, BitVec.setWidth_eq]
  · apply BitVec.eq_of_toNat_eq
    rw [fracField_pack, BitVec.toNat_ofNat, Nat.add_mod_left, Nat.mod_eq_of_lt (fracField x).isLt]

/-- Packing the sign, exponent and mantissa of a finite pattern gives it back, the zeros included. -/
theorem packRounded_unpack (rm : Rm) {x : Word} (hfin : IsFinite x) :
    packRounded rm (signBit x) (unpack x).m (unpack x).e = x := by
  by_cases hexp : expField x = 0#8
  · obtain ⟨he, hm⟩ := unpack_of_exp_zero hexp
    rw [he, hm, packRounded_of_subnormal _ _ _ _ (fracField x).isLt]
    simpa [hexp] using pack_fields x
  · obtain ⟨he, hm⟩ := unpack_of_exp_ne_zero hexp
    have hF := (fracField x).isLt
    have hhigh := he ▸ unpack_e_le_of_finite hfin
    rw [he, hm, packRounded_of_normal _ _ _ _ (by omega) (by omega) hhigh, sub_add_cancel, Int.toNat_natCast,
      pack_significand]

/-- `COMPOSE` of what `DECOMP` gives is the original pattern, in every mode (R53). -/
theorem compose_decomp (rm : Rm) (x : Word) :
    compose rm (decompY x) (signBit x) (BitVec.ofInt 16 (unpack x).e) = x := by
  by_cases hexp : expField x = 255#8
  · obtain ⟨he, hm⟩ := unpack_of_exp_max hexp
    have hF := (fracField x).isLt
    rw [compose_of_code _ _ (by rw [toInt_ofInt_unpack_e, decompY_toNat]; omega), decompY_toNat, hm]
    simpa [hexp] using pack_significand x
  · have hpacked := compose_of_aligned rm (m := decompY x) (signBit x) (ef := BitVec.ofInt 16 (unpack x).e)
    obtain ⟨hlow, -⟩ := unpack_e_range x
    rw [decompY_toNat, toInt_ofInt_unpack_e, packRounded_unpack rm hexp] at hpacked
    exact hpacked (unpack_m_lt x) hlow (unpack_e_le_of_finite hexp) (unpack_aligned x)

/-- Settles O23, by `compose_decomp` on the fields that the SE word carries. -/
theorem composeOfDecompIsTheOriginal : Obligations.ComposeOfDecompIsTheOriginal := by
  intro x rm s t
  refine ⟨decompY x, decompZ x, rfl, ?_⟩
  rw [decompZ_sign, decompZ_exp, exec_eq_responseOf, responseOf, compose_decomp]

end Sys2Proof.Machine
end

section
/-! The adder: the alignment shifter, `ADD` and `SUB` (spec/42_adder.md R54 to R57). The idea of the datapath is the
jam: it carries an exact magnitude as its integer part with "something follows" ORed into bit 0, and sums of jammed
magnitudes round as the exact sums do. -/

namespace Sys2Proof.Machine

/-! ### The alignment shifter (R54) -/

/-- `shr_jam` is the floor shift with the OR of what it shifts out in bit 0, at any distance (R54). -/
theorem shrJam_eq {X : ℕ} (d : ℕ) (hX : X < 2 ^ 27) :
    shrJam X d = (X / 2 ^ d) ||| (if X % 2 ^ d = 0 then 0 else 1) := by
  rcases Nat.eq_zero_or_pos d with rfl | hpos
  · simp [shrJam, Nat.mod_one]
  rcases le_or_gt 27 d with hfar | hnear
  · have hlt : X < 2 ^ d := hX.trans_le (Nat.pow_le_pow_right two_pos hfar)
    rw [shrJam, if_neg hpos.ne', if_pos hfar, Nat.div_eq_of_lt hlt, Nat.mod_eq_of_lt hlt, Nat.zero_or]
  · rw [shrJam, if_neg hpos.ne', if_neg hnear.not_ge, Nat.shiftRight_eq_div_pow]

/-- Settles O27, by `shrJam_eq`; the two other clauses are the first two lines of the definition. -/
theorem shrJamKeepsTheSticky : Obligations.ShrJamKeepsTheSticky := by
  intro X d hX
  refine ⟨fun hd => by rw [shrJam, if_pos hd], fun hfar => ?_, shrJam_eq d hX⟩
  rw [shrJam, if_neg (by omega), if_pos hfar]

/-! ### Jammed magnitudes (R54, R55) -/

theorem or_one_eq (M : ℕ) : M ||| 1 = 2 * (M / 2) + 1 := by
  apply Nat.eq_of_testBit_eq
  intro i
  cases i with
  | zero => simp
  | succ i => simp [Nat.testBit_succ, Nat.or_div_two, Nat.mul_add_div]

theorem or_one_div_two (M : ℕ) : (M ||| 1) / 2 = M / 2 := by
  rw [or_one_eq]
  omega

theorem or_one_testBit_succ (M i : ℕ) : (M ||| 1).testBit (i + 1) = M.testBit (i + 1) := by
  rw [Nat.testBit_succ, or_one_div_two, ← Nat.testBit_succ]

/-- The exact magnitude `T` in the adder's format: its integer part, with bit 0 set when a fraction follows. -/
def jam (T : ℚ) : ℕ := ⌊T⌋₊ ||| (if T = ⌊T⌋₊ then 0 else 1)

@[simp] theorem jam_natCast (n : ℕ) : jam n = n := by
  simp [jam]

theorem jam_of_between {T : ℚ} {M : ℕ} (hlow : M < T) (hhigh : T < M + 1) : jam T = M ||| 1 := by
  have hfloor : ⌊T⌋₊ = M := (Nat.floor_eq_iff (by linarith [M.cast_nonneg (α := ℚ)])).2 ⟨hlow.le, hhigh⟩
  rw [jam, hfloor, if_neg hlow.ne']

/-- A magnitude is a whole number or lies strictly between two. -/
theorem natCast_or_between {T : ℚ} (hT : 0 ≤ T) : (∃ n : ℕ, T = n) ∨ ∃ M : ℕ, (M : ℚ) < T ∧ T < M + 1 := by
  rcases (Nat.floor_le hT).eq_or_lt with hwhole | hfrac
  · exact .inl ⟨_, hwhole.symm⟩
  · exact .inr ⟨_, hfrac, Nat.lt_floor_add_one T⟩

theorem jam_eq_zero_iff {T : ℚ} (hT : 0 ≤ T) : jam T = 0 ↔ T = 0 := by
  rcases natCast_or_between hT with ⟨n, rfl⟩ | ⟨M, hlow, hhigh⟩
  · rw [jam_natCast, Nat.cast_eq_zero]
  · have hpos : 0 < T := M.cast_nonneg.trans_lt hlow
    simp [jam_of_between hlow hhigh, or_one_eq, hpos.ne']

/-- The alignment shifter jams the shifted magnitude. -/
theorem shrJam_eq_jam {X : ℕ} (d : ℕ) (hX : X < 2 ^ 27) : shrJam X d = jam (X / 2 ^ d) := by
  have hpow : (0 : ℚ) < 2 ^ d := by positivity
  have hdiv : ((X / 2 ^ d : ℕ) : ℚ) * 2 ^ d + (X % 2 ^ d : ℕ) = X := mod_cast Nat.div_add_mod' X (2 ^ d)
  have hlt : ((X % 2 ^ d : ℕ) : ℚ) < 2 ^ d := mod_cast Nat.mod_lt X (Nat.two_pow_pos d)
  rw [shrJam_eq d hX]
  split_ifs with hmod
  · rw [hmod, Nat.cast_zero, add_zero] at hdiv
    rw [← hdiv, mul_div_cancel_right₀ _ hpow.ne', jam_natCast, Nat.or_zero]
  · have hpos : (0 : ℚ) < (X % 2 ^ d : ℕ) := mod_cast Nat.pos_of_ne_zero hmod
    refine (jam_of_between ?_ ?_).symm
    · rw [lt_div_iff₀ hpow]; linarith
    · rw [div_lt_iff₀ hpow]; linarith

/-- Adding an even number to a jammed magnitude jams the sum. -/
theorem jam_add {n : ℕ} {T : ℚ} (hn : 2 ∣ n) (hT : 0 ≤ T) : n + jam T = jam (n + T) := by
  rcases natCast_or_between hT with ⟨k, rfl⟩ | ⟨M, hlow, hhigh⟩
  · rw [← Nat.cast_add, jam_natCast, jam_natCast]
  · have hsum : jam (n + T) = (n + M) ||| 1 := jam_of_between (by push_cast; linarith) (by push_cast; linarith)
    rw [hsum, jam_of_between hlow hhigh, or_one_eq, or_one_eq]
    omega

/-- Subtracting a jammed magnitude from an even number jams the difference: the borrow goes into the sticky bit. -/
theorem jam_sub {n : ℕ} {T : ℚ} (hn : 2 ∣ n) (hT : 0 ≤ T) (hle : T ≤ n) : n - jam T = jam (n - T) := by
  rcases natCast_or_between hT with ⟨k, rfl⟩ | ⟨M, hlow, hhigh⟩
  · rw [← Nat.cast_sub (by exact_mod_cast hle), jam_natCast, jam_natCast]
  · have hM : M + 1 ≤ n := by exact_mod_cast hlow.trans_le hle
    have hcast : ((n - (M + 1) : ℕ) : ℚ) = n - (M + 1) := by rw [Nat.cast_sub hM]; push_cast; rfl
    have hdiff : jam (n - T) = (n - (M + 1)) ||| 1 :=
      jam_of_between (by rw [hcast]; linarith) (by rw [hcast]; linarith)
    rw [hdiff, jam_of_between hlow hhigh, or_one_eq, or_one_eq]
    omega

/-! ### Rounding a jammed magnitude (R44, R47, R48) -/

theorem bitlen_or_one {M : ℕ} (hM : M ≠ 0) : bitlen (M ||| 1) = bitlen M := by
  have hpos := bitlen_pos hM
  refine le_antisymm (bitlen_le_iff.2 (Nat.or_lt_two_pow (lt_two_pow_bitlen M) ?_)) (bitlen_le_iff.2 ?_)
  · exact Nat.one_lt_two_pow hpos.ne'
  · exact Nat.left_le_or.trans_lt (lt_two_pow_bitlen _)

/-- With 26 bits or more, bit 0 stays below the guard bit, where every mode reads it as it reads the sticky bit. -/
theorem roundPack_or_one (rm : Rm) (s : Bool) (e : ℤ) {M : ℕ} (hlen : 26 ≤ bitlen M) :
    roundPack rm s e (M ||| 1) false = roundPack rm s e M true := by
  have hM : M ≠ 0 := by rintro rfl; simp at hlen
  obtain ⟨n, hn⟩ : ∃ n : ℕ, max (e + bitlen M - 1) (-126) - 23 - e = (n + 2 : ℕ) :=
    ⟨(max (e + bitlen M - 1) (-126) - 25 - e).toNat, by omega⟩
  have hk : (cut (n + 2 : ℕ) (M ||| 1) false).k = (cut (n + 2 : ℕ) M true).k := by
    rw [cut_of_pos _ _ _ (by omega), cut_of_pos _ _ _ (by omega)]
    simp only [pow_succ', ← Nat.div_div_eq_div_mul, or_one_div_two]
  have hg : (cut (n + 2 : ℕ) (M ||| 1) false).g = (cut (n + 2 : ℕ) M true).g := by
    rw [cut_of_pos _ _ _ (by omega), cut_of_pos _ _ _ (by omega)]
    exact or_one_testBit_succ M n
  have hrest : ((cut (n + 2 : ℕ) (M ||| 1) false).r || (cut (n + 2 : ℕ) (M ||| 1) false).st) =
      ((cut (n + 2 : ℕ) M true).r || (cut (n + 2 : ℕ) M true).st) := by
    have hodd : (M ||| 1) % 2 ^ (n + 1) % 2 = 1 := by
      rw [or_one_eq, pow_succ', Nat.mod_mul_right_mod]
      omega
    have hne : (M ||| 1) % 2 ^ (n + 1) ≠ 0 := by omega
    rw [Bool.eq_iff_iff, cut_round_or_sticky, cut_round_or_sticky]
    exact iff_of_true (.inl hne) (.inr rfl)
  simp only [roundPack, bitlen_or_one hM, hn, hk, hg, roundInc_congr _ _ _ _ _ _ _ _ hrest]

/-- `roundPack` of a jammed magnitude is correct rounding of the exact one, if a fraction comes with 26 bits before
it (42_adder.md R55, note 2). -/
theorem roundPack_jam (rm : Rm) (s : Bool) (e : ℤ) {T : ℚ} (hT : 0 < T)
    (hlong : T < 2 ^ 25 → ∃ n : ℕ, T = n) : RoundsTo rm s (T * 2 ^ e) (roundPack rm s e (jam T) false) := by
  rcases natCast_or_between hT.le with ⟨n, rfl⟩ | ⟨M, hlow, hhigh⟩
  · rw [jam_natCast]
    exact roundPackRoundsCorrectly rm s e n false _ (by exact_mod_cast hT) (fun _ => rfl) (by simp)
  · have hlarge : 2 ^ 25 ≤ T := not_lt.1 fun hsmall => by
      obtain ⟨n, rfl⟩ := hlong hsmall
      exact absurd (Nat.cast_lt.1 hlow) (not_lt.2 (Nat.lt_succ_iff.1 (by exact_mod_cast hhigh)))
    have hM : 2 ^ 25 ≤ M := Nat.lt_succ_iff.1 (by exact_mod_cast hlarge.trans_lt hhigh)
    have hlen : 26 ≤ bitlen M := not_lt.1 fun h => absurd (bitlen_le_iff.1 (Nat.lt_succ_iff.1 h)) hM.not_gt
    have hpow : (0 : ℚ) < 2 ^ e := by positivity
    rw [jam_of_between hlow hhigh, roundPack_or_one rm s e hlen]
    exact roundPackRoundsCorrectly rm s e M true _ (by omega) (by simp)
      fun _ => ⟨hlen, mul_lt_mul_of_pos_right hlow hpow, mul_lt_mul_of_pos_right hhigh hpow⟩

end Sys2Proof.Machine
end

section
/-! `ADD` and `SUB` (spec/42_adder.md R55 to R57). -/

namespace Sys2Proof.Machine

/-! ### Unpacked operands and their values (R39, R41) -/

/-- What `unpack` promises of the exponent and the mantissa of every pattern (R41). -/
structure Unpacked.WellFormed (u : Unpacked) : Prop where
  m_lt : u.m < 2 ^ 24
  e_ge : -126 ≤ u.e
  aligned : u.e = -126 ∨ 2 ^ 23 ≤ u.m

theorem unpack_wellFormed (x : Word) : (unpack x).WellFormed :=
  ⟨unpack_m_lt x, (unpack_e_range x).1, unpack_aligned x⟩

/-- The magnitude of an unpacked operand. -/
def Unpacked.mag (u : Unpacked) : ℚ := u.m * 2 ^ (u.e - 23)

/-- The value of an unpacked operand. -/
def Unpacked.val (u : Unpacked) : ℚ := if u.sign then -u.mag else u.mag

theorem Unpacked.mag_nonneg (u : Unpacked) : 0 ≤ u.mag := by
  unfold mag
  positivity

theorem Unpacked.mag_eq_zero_iff {u : Unpacked} : u.mag = 0 ↔ u.m = 0 := by
  have hpow : (2 : ℚ) ^ (u.e - 23) ≠ 0 := by positivity
  rw [mag, mul_eq_zero, or_iff_left hpow, Nat.cast_eq_zero]

@[simp] theorem unpack_mag (x : Word) : (unpack x).mag = magnitude x := by
  unfold magnitude Unpacked.mag
  split_ifs with hexp
  · obtain ⟨he, hm⟩ := unpack_of_exp_zero hexp
    rw [he, hm]
    norm_num
  · obtain ⟨he, hm⟩ := unpack_of_exp_ne_zero hexp
    rw [he, hm]
    push_cast
    rfl

@[simp] theorem unpack_val (x : Word) : (unpack x).val = val x := by
  rw [Unpacked.val, unpack_sign, unpack_mag, val]

theorem unpack_m_eq_zero_iff (x : Word) : (unpack x).m = 0 ↔ IsZero x := by
  by_cases hexp : expField x = 0#8
  · rw [(unpack_of_exp_zero hexp).2]
    simp [IsZero, hexp, BitVec.toNat_eq]
  · rw [(unpack_of_exp_ne_zero hexp).2]
    simp [IsZero, hexp]

/-- Packing the sign of a zero gives it back. -/
theorem packZero_signBit {x : Word} (h : IsZero x) : packZero (signBit x) = x := by
  simpa [packZero, h.1, h.2] using pack_fields x

/-- Packing the sign of an infinity gives it back. -/
theorem packInf_signBit {x : Word} (h : IsInf x) : packInf (signBit x) = x := by
  simpa [packInf, h.1, h.2] using pack_fields x

/-! ### Alignment (R54, R55) -/

/-- The order that R55 puts the operands in: exponent first, then mantissa. -/
abbrev Unpacked.Dominates (x y : Unpacked) : Prop := x.e > y.e ∨ (x.e = y.e ∧ x.m ≥ y.m)

/-- What R55's adding path is given: unpacked operands, the larger or equal magnitude first. -/
structure Unpacked.Ordered (x y : Unpacked) : Prop where
  left : x.WellFormed
  right : y.WellFormed
  dominates : x.Dominates y

/-- The magnitude of `y`, exact, in the units of the datapath that `x` sets: `2^(x.e - 26)`. -/
def Unpacked.alignedTo (y x : Unpacked) : ℚ := (8 * y.m : ℕ) / 2 ^ (x.e - y.e).toNat

/-- The magnitude of the exact sum in the same units, when `x` dominates `y`. -/
def alignedSum (x y : Unpacked) : ℚ :=
  if x.sign = y.sign then (8 * x.m : ℕ) + y.alignedTo x else (8 * x.m : ℕ) - y.alignedTo x

theorem Unpacked.alignedTo_nonneg (y x : Unpacked) : 0 ≤ y.alignedTo x := by
  unfold alignedTo
  positivity

/-- Three bits below the significand scale the unit down by 8. -/
theorem Unpacked.mag_eq_scaled (x : Unpacked) : x.mag = (8 * x.m : ℕ) * 2 ^ (x.e - 26) := by
  have hscale : (2 : ℚ) ^ (x.e - 23) = 8 * 2 ^ (x.e - 26) := by
    rw [show x.e - 23 = 3 + (x.e - 26) by ring, zpow_add₀ two_ne_zero]
    norm_num
  rw [mag, hscale]
  push_cast
  ring

/-- Alignment keeps the magnitude. -/
theorem Unpacked.mag_eq_alignedTo {x y : Unpacked} (h : x.Ordered y) :
    y.mag = y.alignedTo x * 2 ^ (x.e - 26) := by
  obtain ⟨d, hd⟩ : ∃ d : ℕ, x.e = y.e + d := ⟨(x.e - y.e).toNat, by have := h.dominates; omega⟩
  have hpow : (2 : ℚ) ^ d ≠ 0 := by positivity
  have hsplit : (2 : ℚ) ^ (x.e - 26) = 2 ^ (y.e - 26) * 2 ^ d := by
    rw [hd, add_sub_right_comm, zpow_add₀ two_ne_zero, zpow_natCast]
  rw [mag_eq_scaled, alignedTo, hsplit, hd, add_sub_cancel_left, Int.toNat_natCast]
  field_simp

/-- The dominating operand has the larger or equal magnitude. -/
theorem Unpacked.alignedTo_le {x y : Unpacked} (h : x.Ordered y) : y.alignedTo x ≤ (8 * x.m : ℕ) := by
  have hdom := h.dominates
  obtain ⟨d, hd⟩ : ∃ d : ℕ, (x.e - y.e).toNat = d := ⟨_, rfl⟩
  have hle : 8 * y.m ≤ 8 * x.m * 2 ^ d := by
    rcases Nat.eq_zero_or_pos d with rfl | hpos
    · omega
    · have hy_low := h.right.e_ge
      have hy_lt := h.right.m_lt
      have hnormal : 2 ^ 23 ≤ x.m := h.left.aligned.resolve_left (by omega)
      have hdouble : 2 ≤ 2 ^ d := Nat.le_self_pow hpos.ne' 2
      calc 8 * y.m ≤ 8 * x.m * 2 := by omega
        _ ≤ 8 * x.m * 2 ^ d := Nat.mul_le_mul_left _ hdouble
  rw [alignedTo, hd, div_le_iff₀ (by positivity)]
  exact_mod_cast hle

theorem alignedSum_nonneg {x y : Unpacked} (h : x.Ordered y) :
    0 ≤ alignedSum x y := by
  have hle := Unpacked.alignedTo_le h
  have hpos := y.alignedTo_nonneg x
  unfold alignedSum
  split_ifs
  · positivity
  · linarith

/-- The exact sum has the dominating operand's sign and the aligned sum's magnitude (R55, note 3). -/
theorem val_add_val {x y : Unpacked} (h : x.Ordered y) :
    x.val + y.val = if x.sign then -(alignedSum x y * 2 ^ (x.e - 26)) else alignedSum x y * 2 ^ (x.e - 26) := by
  rw [Unpacked.val, Unpacked.val, Unpacked.mag_eq_scaled x, Unpacked.mag_eq_alignedTo h, alignedSum]
  cases x.sign <;> cases y.sign <;> simp <;> ring

/-- Adding to or subtracting from the three zero bits of `x` keeps the jam. -/
theorem jam_alignedSum {x y : Unpacked} (h : x.Ordered y) :
    jam (alignedSum x y) =
      if x.sign = y.sign then 8 * x.m + jam (y.alignedTo x) else 8 * x.m - jam (y.alignedTo x) := by
  have heven : 2 ∣ 8 * x.m := ⟨4 * x.m, by ring⟩
  rw [alignedSum]
  split_ifs
  · exact (jam_add heven (y.alignedTo_nonneg x)).symm
  · exact (jam_sub heven (y.alignedTo_nonneg x) (Unpacked.alignedTo_le h)).symm

/-- The sum of ordered operands: a zero, or the jammed exact sum rounded (R55). -/
theorem addOrdered_eq (rm : Rm) {x y : Unpacked} (h : x.Ordered y) :
    addOrdered rm x y =
      if alignedSum x y = 0 then (if x.sign = y.sign then packZero x.sign else cancelZero rm)
      else roundPack rm x.sign (x.e - 26) (jam (alignedSum x y)) false := by
  have hguard (u : Unpacked) : u.m <<< 3 = 8 * u.m := by rw [Nat.shiftLeft_eq, mul_comm]
  have hy_lt := h.right.m_lt
  have haligned : shrJam (8 * y.m) (x.e - y.e).toNat = jam (y.alignedTo x) := shrJam_eq_jam _ (by omega)
  simp only [addOrdered, hguard, haligned, ← jam_alignedSum h, jam_eq_zero_iff (alignedSum_nonneg h)]

/-- A shift by at most three places only uses up the three extra bits. -/
theorem Unpacked.alignedTo_whole {x y : Unpacked} (hnear : (x.e - y.e).toNat ≤ 3) :
    ∃ k : ℕ, y.alignedTo x = k := by
  have hdvd : 2 ^ (x.e - y.e).toNat ∣ 8 * y.m := (pow_dvd_pow 2 hnear).mul_right y.m
  refine ⟨8 * y.m / 2 ^ (x.e - y.e).toNat, ?_⟩
  rw [alignedTo, Nat.cast_div hdvd (by positivity)]
  push_cast
  rfl

theorem Unpacked.alignedTo_lt_of_far {x y : Unpacked} (hy : y.WellFormed) (hfar : 4 ≤ (x.e - y.e).toNat) :
    y.alignedTo x < 2 ^ 23 := by
  have hpow : 2 ^ 4 ≤ 2 ^ (x.e - y.e).toNat := Nat.pow_le_pow_right two_pos hfar
  have hm := hy.m_lt
  have hlt : 8 * y.m < 2 ^ 23 * 2 ^ (x.e - y.e).toNat := by omega
  rw [alignedTo, div_lt_iff₀ (by positivity)]
  exact_mod_cast hlt

/-- A fraction comes with 26 bits before it: a shift by four places or more makes `x` normal and leaves less than
`2^23` of `y` (R55, note 2). -/
theorem alignedSum_whole_of_small {x y : Unpacked} (h : x.Ordered y)
    (hsmall : alignedSum x y < 2 ^ 25) : ∃ n : ℕ, alignedSum x y = n := by
  rcases Nat.lt_or_ge 3 (x.e - y.e).toNat with hfar | hnear
  · have hlt := Unpacked.alignedTo_lt_of_far h.right hfar
    have hpos := y.alignedTo_nonneg x
    have hnormal : 2 ^ 23 ≤ x.m := h.left.aligned.resolve_left (by have := h.right.e_ge; omega)
    have hlarge : (2 : ℚ) ^ 26 ≤ (8 * x.m : ℕ) := by exact_mod_cast (by omega : 2 ^ 26 ≤ 8 * x.m)
    unfold alignedSum at hsmall
    split_ifs at hsmall <;> linarith
  · obtain ⟨k, hk⟩ := Unpacked.alignedTo_whole hnear
    have hle : k ≤ 8 * x.m := by exact_mod_cast hk ▸ Unpacked.alignedTo_le h
    rw [alignedSum, hk]
    split_ifs
    · exact ⟨8 * x.m + k, by push_cast; rfl⟩
    · exact ⟨8 * x.m - k, by rw [Nat.cast_sub hle]⟩

/-! ### The sum of two ordered operands (R55) -/

theorem alignedSum_eq_zero_iff {x y : Unpacked} (h : x.Ordered y) : alignedSum x y = 0 ↔ x.val + y.val = 0 := by
  have hpow : (2 : ℚ) ^ (x.e - 26) ≠ 0 := by positivity
  rw [val_add_val h]
  split <;> simp [hpow]

theorem addOrdered_of_sum_eq_zero (rm : Rm) {x y : Unpacked} (h : x.Ordered y) (hsum : x.val + y.val = 0) :
    addOrdered rm x y = if x.sign = y.sign then packZero x.sign else cancelZero rm := by
  rw [addOrdered_eq rm h, if_pos ((alignedSum_eq_zero_iff h).2 hsum)]

/-- The guard, round and sticky bits are enough: a sum that is not zero is rounded as the exact sum (R55, note 2). -/
theorem addOrdered_roundsTo (rm : Rm) {x y : Unpacked} (h : x.Ordered y) (hsum : x.val + y.val ≠ 0) :
    RoundsTo rm (decide (x.val + y.val < 0)) |x.val + y.val| (addOrdered rm x y) := by
  have hne : alignedSum x y ≠ 0 := fun h0 => hsum ((alignedSum_eq_zero_iff h).1 h0)
  have hpos : 0 < alignedSum x y := (alignedSum_nonneg h).lt_of_ne' hne
  have hscaled : 0 < alignedSum x y * 2 ^ (x.e - 26) := by positivity
  have hsign : decide (x.val + y.val < 0) = x.sign := by
    rw [val_add_val h]
    cases x.sign <;> simp [hscaled, hscaled.le]
  have habs : |x.val + y.val| = alignedSum x y * 2 ^ (x.e - 26) := by
    rw [val_add_val h]
    cases x.sign <;> simp [abs_of_pos hscaled]
  rw [hsign, habs, addOrdered_eq rm h, if_neg hne]
  exact roundPack_jam rm x.sign _ hpos (alignedSum_whole_of_small h)

theorem testBit_eight_mul (m : ℕ) {i : ℕ} (hi : i < 3) : (8 * m).testBit i = false := by
  rw [show 8 * m = 2 ^ 3 * m by rfl, Nat.testBit_two_pow_mul, decide_eq_false hi.not_ge, Bool.false_and]

/-- A mantissa in its place with three zero bits below it is packed without rounding. -/
theorem roundPack_of_guard_zeros (rm : Rm) {u : Unpacked} (hu : u.WellFormed) :
    roundPack rm u.sign (u.e - 26) (8 * u.m) false = packRounded rm u.sign u.m u.e := by
  have hlt := hu.m_lt
  have hlow := hu.e_ge
  have hlen : bitlen (8 * u.m) ≤ 27 := bitlen_le_iff.2 (by omega)
  have hlen_normal : u.e = -126 ∨ 26 < bitlen (8 * u.m) :=
    hu.aligned.imp_right fun h => not_le.1 fun h' => absurd (bitlen_le_iff.1 h') (by omega)
  have hbinade : max (u.e - 26 + bitlen (8 * u.m) - 1) (-126) = u.e := by omega
  have hcut : cut 3 (8 * u.m) false = ⟨u.m, false, false, false⟩ := by
    have h2 := testBit_eight_mul u.m (i := 2) (by norm_num)
    have h1 := testBit_eight_mul u.m (i := 1) (by norm_num)
    rw [show (3 : ℤ) = (3 : ℕ) by rfl, cut_of_pos 3 _ _ (by norm_num)]
    simp [h1, h2, Nat.mul_mod]
  have hshift : u.e - 23 - (u.e - 26) = 3 := by ring
  simp [roundPack, hbinade, hshift, hcut]

/-- Adding a zero packs the other operand as it is (R55, note 1). -/
theorem addOrdered_of_zero (rm : Rm) {x y : Unpacked} (h : x.Ordered y) (hy0 : y.m = 0) (hx0 : x.m ≠ 0) :
    addOrdered rm x y = packRounded rm x.sign x.m x.e := by
  have hsum : alignedSum x y = (8 * x.m : ℕ) := by simp [alignedSum, Unpacked.alignedTo, hy0]
  have hne : ((8 * x.m : ℕ) : ℚ) ≠ 0 := by exact_mod_cast (by omega : 8 * x.m ≠ 0)
  rw [addOrdered_eq rm h, hsum, if_neg hne, jam_natCast, roundPack_of_guard_zeros rm h.left]

/-! ### `ADD` (R56) -/

theorem decode_add (a b : Word) : decode ⟨0x04#8, a, b⟩ = .instr (.add .rne a b) :=
  decodeWith_cmdByte Config.rmExt 0#3 0x04#5 a b

@[simp] theorem flipSign_false (u : Unpacked) : flipSign false u = u := by
  rw [flipSign, Bool.xor_false]

theorem fadd_false (rm : Rm) (a b : Word) : fadd rm a b false = addUnpacked rm (unpack a) (unpack b) := by
  rw [fadd, flipSign_false]

/-- R55 line by line, on the classes of the patterns. -/
theorem fadd_eq (rm : Rm) (a b : Word) :
    fadd rm a b false =
      if IsNaN a ∨ IsNaN b then Config.canonNaN
      else if IsInf a ∧ IsInf b then
        (if signBit a = signBit b then packInf (signBit a) else Config.canonNaN)
      else if IsInf a then packInf (signBit a)
      else if IsInf b then packInf (signBit b)
      else if (unpack a).Dominates (unpack b) then addOrdered rm (unpack a) (unpack b)
      else addOrdered rm (unpack b) (unpack a) := by
  simp only [fadd_false, addUnpacked, unpack_cls, unpack_sign, classify_eq_nan_iff, classify_eq_infinity_iff]

/-- Two finite operands are ordered and then added; the order changes nothing about the exact sum (R55). -/
theorem fadd_of_finite (rm : Rm) {a b : Word} (ha : IsFinite a) (hb : IsFinite b) :
    ∃ x y : Word, (x = a ∧ y = b ∨ x = b ∧ y = a) ∧ (unpack x).Ordered (unpack y) ∧
      (unpack x).val + (unpack y).val = val a + val b ∧
      fadd rm a b false = addOrdered rm (unpack x) (unpack y) := by
  have hordered : fadd rm a b false = if (unpack a).Dominates (unpack b) then addOrdered rm (unpack a) (unpack b)
      else addOrdered rm (unpack b) (unpack a) := by
    rw [fadd_eq, if_neg (by tauto), if_neg (by tauto), if_neg (by tauto), if_neg (by tauto)]
  rw [hordered]
  split_ifs with hdom
  · exact ⟨a, b, .inl ⟨rfl, rfl⟩, ⟨unpack_wellFormed a, unpack_wellFormed b, hdom⟩, by simp, rfl⟩
  · exact ⟨b, a, .inr ⟨rfl, rfl⟩, ⟨unpack_wellFormed b, unpack_wellFormed a, by omega⟩, by simp [add_comm], rfl⟩

/-- Finite operands whose sum is zero: two zeros of one sign, or a cancellation (R55, note 4). -/
theorem fadd_of_sum_eq_zero (rm : Rm) {a b : Word} (ha : IsFinite a) (hb : IsFinite b) (hsum : val a + val b = 0) :
    fadd rm a b false = if signBit a = signBit b then packZero (signBit a) else cancelZero rm := by
  obtain ⟨x, y, hxy, hord, hexact, hadd⟩ := fadd_of_finite rm ha hb
  rw [hadd, addOrdered_of_sum_eq_zero rm hord (hexact.trans hsum), unpack_sign, unpack_sign]
  rcases hxy with ⟨rfl, rfl⟩ | ⟨rfl, rfl⟩
  · rfl
  · cases signBit x <;> cases signBit y <;> rfl

/-- A sum of finite operands that is not zero is rounded once, with its own sign (R55, R58). -/
theorem fadd_roundsTo (rm : Rm) {a b : Word} (ha : IsFinite a) (hb : IsFinite b) (hsum : val a + val b ≠ 0) :
    RoundsTo rm (decide (val a + val b < 0)) |val a + val b| (fadd rm a b false) := by
  obtain ⟨x, y, -, hord, hexact, hadd⟩ := fadd_of_finite rm ha hb
  have hround := addOrdered_roundsTo rm hord (hexact ▸ hsum)
  rwa [hexact, ← hadd] at hround

/-- Adding a zero to a nonzero finite operand gives that operand (R55, note 1): the nonzero one is the dominating one,
and its significand is packed as it is. -/
theorem addOrdered_of_isZero (rm : Rm) {x y : Word} (hx : IsFinite x) (hx0 : ¬ IsZero x) (hy : IsZero y)
    (hord : (unpack x).Ordered (unpack y)) : addOrdered rm (unpack x) (unpack y) = x := by
  have hx_m : (unpack x).m ≠ 0 := mt (unpack_m_eq_zero_iff x).1 hx0
  have hy_m : (unpack y).m = 0 := (unpack_m_eq_zero_iff y).2 hy
  rw [addOrdered_of_zero rm hord hy_m hx_m, unpack_sign, packRounded_unpack rm hx]

theorem not_dominates_of_isZero {x y : Word} (hx0 : ¬ IsZero x) (hy : IsZero y) :
    ¬ (unpack y).Dominates (unpack x) := by
  have hx_m : (unpack x).m ≠ 0 := mt (unpack_m_eq_zero_iff x).1 hx0
  have hx_e := (unpack_e_range x).1
  have hy_m : (unpack y).m = 0 := (unpack_m_eq_zero_iff y).2 hy
  have hy_e : (unpack y).e = -126 := (unpack_of_exp_zero hy.1).1
  omega

theorem isFinite_of_not_special {x : Word} (hnan : ¬ IsNaN x) (hinf : ¬ IsInf x) : IsFinite x := fun hexp =>
  (em (fracField x = 0#23)).elim (fun hfrac => hinf ⟨hexp, hfrac⟩) fun hfrac => hnan ⟨hexp, hfrac⟩

theorem isFinite_of_isZero {x : Word} (h : IsZero x) : IsFinite x := by
  rw [IsFinite, h.1]
  decide

theorem fadd_of_isZero_right (rm : Rm) {a b : Word} (ha : IsFinite a) (ha0 : ¬ IsZero a) (hb : IsZero b) :
    fadd rm a b false = a := by
  obtain ⟨x, y, ⟨rfl, rfl⟩ | ⟨rfl, rfl⟩, hord, -, hadd⟩ := fadd_of_finite rm ha (isFinite_of_isZero hb)
  · rw [hadd, addOrdered_of_isZero rm ha ha0 hb hord]
  · exact absurd hord.dominates (not_dominates_of_isZero ha0 hb)

theorem fadd_of_isZero_left (rm : Rm) {a b : Word} (ha : IsZero a) (hb : IsFinite b) (hb0 : ¬ IsZero b) :
    fadd rm a b false = b := by
  obtain ⟨x, y, ⟨rfl, rfl⟩ | ⟨rfl, rfl⟩, hord, -, hadd⟩ := fadd_of_finite rm (isFinite_of_isZero ha) hb
  · exact absurd hord.dominates (not_dominates_of_isZero hb0 ha)
  · rw [hadd, addOrdered_of_isZero rm hb hb0 ha hord]

/-- The value of a zero of either sign. -/
theorem val_of_isZero {x : Word} (h : IsZero x) : val x = 0 := by
  simp [val, magnitude, h.1, h.2]

/-- Two finite operands of the same sign cancel only if both are zeros. -/
theorem isZero_of_sum_eq_zero {a b : Word} (hsigns : signBit a = signBit b) (hsum : val a + val b = 0) :
    IsZero a ∧ IsZero b := by
  have hiff (x : Word) : magnitude x = 0 ↔ IsZero x := by
    rw [← unpack_mag, Unpacked.mag_eq_zero_iff, unpack_m_eq_zero_iff]
  have ha : 0 ≤ magnitude a := unpack_mag a ▸ Unpacked.mag_nonneg _
  have hb : 0 ≤ magnitude b := unpack_mag b ▸ Unpacked.mag_nonneg _
  rw [← hiff, ← hiff]
  rw [val, val, hsigns] at hsum
  split_ifs at hsum <;> constructor <;> linarith

/-- `ADD` answers by R56's table. -/
theorem fadd_addTable (rm : Rm) (a b : Word) : AddTable rm a b (fadd rm a b false) := by
  have hzeros (hzero : IsZero a ∧ IsZero b) : val a + val b = 0 := by
    rw [val_of_isZero hzero.1, val_of_isZero hzero.2, add_zero]
  unfold AddTable
  split_ifs with hnan hinf hsigns hinfa hinfb hzero hsigns hzerob hzeroa hcancel
  · rw [fadd_eq, if_pos hnan]
  · rw [fadd_eq, if_neg hnan, if_pos hinf, if_pos hsigns, packInf_signBit hinf.1]
  · rw [fadd_eq, if_neg hnan, if_pos hinf, if_neg hsigns]
  · rw [fadd_eq, if_neg hnan, if_neg hinf, if_pos hinfa, packInf_signBit hinfa]
  · rw [fadd_eq, if_neg hnan, if_neg hinf, if_neg hinfa, if_pos hinfb, packInf_signBit hinfb]
  all_goals
    have ha : IsFinite a := isFinite_of_not_special (not_or.1 hnan).1 hinfa
    have hb : IsFinite b := isFinite_of_not_special (not_or.1 hnan).2 hinfb
  · rw [fadd_of_sum_eq_zero rm ha hb (hzeros hzero), if_pos hsigns, packZero_signBit hzero.1]
  · rw [fadd_of_sum_eq_zero rm ha hb (hzeros hzero), if_neg hsigns, cancelZero_eq]
  · exact fadd_of_isZero_right rm ha (fun hzeroa => hzero ⟨hzeroa, hzerob⟩) hzerob
  · exact fadd_of_isZero_left rm hzeroa hb hzerob
  · rw [fadd_of_sum_eq_zero rm ha hb hcancel, if_neg fun hsigns => hzero (isZero_of_sum_eq_zero hsigns hcancel),
      cancelZero_eq]
  · exact fadd_roundsTo rm ha hb hcancel

/-- Settles O28, by `fadd_addTable`. -/
theorem addRoundsTheExactSum : Obligations.AddRoundsTheExactSum := by
  intro rm a b s
  exact ⟨decode_add a b, fadd rm a b false, rfl, fadd_addTable rm a b⟩

/-! ### `SUB` (R57) -/

theorem decode_sub (a b : Word) : decode ⟨0x05#8, a, b⟩ = .instr (.sub .rne a b) :=
  decodeWith_cmdByte Config.rmExt 0#3 0x05#5 a b

@[simp] theorem signBit_xor_sign (x : Word) : signBit (x ^^^ 0x80000000#32) = !signBit x := by
  simp [signBit]

@[simp] theorem expField_xor_sign (x : Word) : expField (x ^^^ 0x80000000#32) = expField x := by
  rw [expField, BitVec.extractLsb'_xor]
  exact BitVec.xor_zero

@[simp] theorem fracField_xor_sign (x : Word) : fracField (x ^^^ 0x80000000#32) = fracField x := by
  rw [fracField, BitVec.extractLsb'_xor]
  exact BitVec.xor_zero

/-- Inverting the sign of a pattern inverts the sign of the unpacked operand and nothing else. -/
theorem unpack_xor_sign (x : Word) : unpack (x ^^^ 0x80000000#32) = flipSign true (unpack x) := by
  unfold unpack
  split_ifs <;> simp_all [flipSign, classify]

/-- `SUB a, b` is `ADD a, b ^ 0x80000000` (R57). -/
theorem fadd_true (rm : Rm) (a b : Word) : fadd rm a b true = fadd rm a (b ^^^ 0x80000000#32) false := by
  rw [fadd_false, unpack_xor_sign, fadd]

theorem val_xor_sign (x : Word) : val (x ^^^ 0x80000000#32) = -val x := by
  simp only [val, magnitude, signBit_xor_sign, expField_xor_sign, fracField_xor_sign]
  cases signBit x <;> simp

theorem fadd_sub_self_of_finite (rm : Rm) {x : Word} (hfin : IsFinite x) :
    fadd rm x x true = zeroOf (decide (rm = .rdn)) := by
  have hfin_neg : IsFinite (x ^^^ 0x80000000#32) := by rwa [IsFinite, expField_xor_sign]
  rw [fadd_true, fadd_of_sum_eq_zero rm hfin hfin_neg (by rw [val_xor_sign, add_neg_cancel]), signBit_xor_sign,
    if_neg (Bool.eq_not_self _).mp, cancelZero_eq]

/-- An infinity or a NaN minus itself is the canonical NaN (R43, R55). -/
theorem fadd_sub_self_of_not_finite (rm : Rm) {x : Word} (hspecial : ¬ IsFinite x) :
    fadd rm x x true = Config.canonNaN := by
  have hexp : expField x = 255#8 := not_not.1 hspecial
  rw [fadd_true, fadd_eq]
  by_cases hfrac : fracField x = 0#23 <;> simp [hexp, hfrac]

/-- Settles O29: `fadd_true` makes the two commands one, and R56's table is O28's. -/
theorem subIsAddOfTheNegated : Obligations.SubIsAddOfTheNegated := by
  intro rm a b s
  refine ⟨decode_sub a b, fadd rm a b true, rfl, ?_, ?_, ?_, ?_⟩
  · rw [fadd_true]
    rfl
  · rw [fadd_true]
    exact fadd_addTable rm a _
  · rintro rfl hfin
    rw [fadd_sub_self_of_finite rm hfin, zeroOf]
    simp only [decide_eq_true_eq]
  · rintro rfl hspecial
    exact fadd_sub_self_of_not_finite rm hspecial

end Sys2Proof.Machine
end

section
/-! `MUL` (spec/43_multiplier.md R59). -/

namespace Sys2Proof.Machine

/-! ### The exact product (R39, R59) -/

/-- The magnitude `P * 2^(ea + eb - 46)` that R59 rounds is the product of the operands' magnitudes. -/
theorem Unpacked.mag_mul_mag (x y : Unpacked) : x.mag * y.mag = (x.m * y.m : ℕ) * 2 ^ (x.e + y.e - 46) := by
  have hexp : (2 : ℚ) ^ (x.e + y.e - 46) = 2 ^ (x.e - 23) * 2 ^ (y.e - 23) := by
    rw [← zpow_add₀ two_ne_zero]
    congr 1
    ring
  rw [mag, mag, hexp]
  push_cast
  ring

theorem abs_val (x : Word) : |val x| = magnitude x := by
  have hnonneg : 0 ≤ magnitude x := unpack_mag x ▸ Unpacked.mag_nonneg _
  rw [val]
  split_ifs
  · rw [abs_neg, abs_of_nonneg hnonneg]
  · exact abs_of_nonneg hnonneg

theorem abs_val_mul_val (a b : Word) :
    |val a * val b| = ((unpack a).m * (unpack b).m : ℕ) * 2 ^ ((unpack a).e + (unpack b).e - 46) := by
  rw [abs_mul, abs_val, abs_val, ← unpack_mag, ← unpack_mag, Unpacked.mag_mul_mag]

/-- The whole product goes to `roundPack`, so that nothing is sticky: it is rounded once (R59). -/
theorem roundPack_product_roundsTo (rm : Rm) (s : Bool) {a b : Word} (ha0 : ¬ IsZero a) (hb0 : ¬ IsZero b) :
    RoundsTo rm s |val a * val b|
      (roundPack rm s ((unpack a).e + (unpack b).e - 46) ((unpack a).m * (unpack b).m) false) := by
  have ha_m : (unpack a).m ≠ 0 := mt (unpack_m_eq_zero_iff a).1 ha0
  have hb_m : (unpack b).m ≠ 0 := mt (unpack_m_eq_zero_iff b).1 hb0
  have hproduct : 1 ≤ (unpack a).m * (unpack b).m := Nat.one_le_iff_ne_zero.2 (mul_ne_zero ha_m hb_m)
  exact roundPackRoundsCorrectly rm s _ _ false _ hproduct (fun _ => abs_val_mul_val a b) (by simp)

/-! ### The command (R59) -/

theorem decode_mul (a b : Word) : decode ⟨0x08#8, a, b⟩ = .instr (.mul .rne a b) :=
  decodeWith_cmdByte Config.rmExt 0#3 0x08#5 a b

/-- R59's pseudocode line by line, on the classes of the patterns. -/
theorem fmul_eq (rm : Rm) (a b : Word) :
    fmul rm a b =
      if IsNaN a ∨ IsNaN b then Config.canonNaN
      else if IsInf a ∨ IsInf b then
        (if IsZero a ∨ IsZero b then Config.canonNaN else infOf (signBit a ^^ signBit b))
      else if IsZero a ∨ IsZero b then zeroOf (signBit a ^^ signBit b)
      else roundPack rm (signBit a ^^ signBit b) ((unpack a).e + (unpack b).e - 46)
        ((unpack a).m * (unpack b).m) false := by
  simp only [fmul, mulUnpacked, unpack_cls, unpack_sign, classify_eq_nan_iff, classify_eq_infinity_iff,
    classify_eq_zero_iff, packInf_eq, packZero_eq]

theorem not_isZero_of_isInf {x : Word} (h : IsInf x) : ¬ IsZero x := fun hzero => isFinite_of_isZero hzero h.1

/-- The table's line for `∞ × 0` is the pseudocode's test for a zero among operands one of which is infinite. -/
theorem inf_times_zero_iff (a b : Word) :
    (IsInf a ∧ IsZero b) ∨ (IsZero a ∧ IsInf b) ↔ (IsInf a ∨ IsInf b) ∧ (IsZero a ∨ IsZero b) := by
  have ha := not_isZero_of_isInf (x := a)
  have hb := not_isZero_of_isInf (x := b)
  tauto

/-- `MUL` answers by R59's table. -/
theorem fmul_mulTable (rm : Rm) (a b : Word) : MulTable rm a b (fmul rm a b) := by
  unfold MulTable
  split_ifs with hnan hinvalid hinf hzero
  · rw [fmul_eq, if_pos hnan]
  · obtain ⟨hinf, hzero⟩ := (inf_times_zero_iff a b).1 hinvalid
    rw [fmul_eq, if_neg hnan, if_pos hinf, if_pos hzero]
  · rw [fmul_eq, if_neg hnan, if_pos hinf, if_neg fun hzero => hinvalid ((inf_times_zero_iff a b).2 ⟨hinf, hzero⟩)]
  · rw [fmul_eq, if_neg hnan, if_neg hinf, if_pos hzero]
  · obtain ⟨ha0, hb0⟩ := not_or.1 hzero
    rw [fmul_eq, if_neg hnan, if_neg hinf, if_neg hzero]
    exact roundPack_product_roundsTo rm _ ha0 hb0

/-- Settles O31, by `fmul_mulTable`. -/
theorem mulRoundsTheExactProduct : Obligations.MulRoundsTheExactProduct := by
  intro rm a b s
  exact ⟨decode_mul a b, fmul rm a b, rfl, fmul_mulTable rm a b⟩

end Sys2Proof.Machine
end

section
/-! `DIV` (spec/44_divider.md R61). The long division keeps everything about the exact quotient: its integer part has
at least 26 bits, and the remainder says whether a fraction follows. -/

namespace Sys2Proof.Machine

/-! ### The long division (R61) -/

/-- The integer quotient and its remainder make up the exact quotient. -/
theorem quotient_add_fraction (N : ℕ) {D : ℕ} (hD : D ≠ 0) : ((N / D : ℕ) : ℚ) + (N % D : ℕ) / D = N / D := by
  have hD' : (D : ℚ) ≠ 0 := Nat.cast_ne_zero.2 hD
  have hdiv : ((N / D : ℕ) : ℚ) * D + (N % D : ℕ) = N := mod_cast Nat.div_add_mod' N D
  rw [eq_div_iff hD', add_mul, div_mul_cancel₀ _ hD', hdiv]

/-- With 26 bits of integer quotient and a nonzero remainder made sticky, `roundPack` rounds the exact quotient
once. -/
theorem roundPack_quotient_roundsTo (rm : Rm) (s : Bool) (e : ℤ) {N D : ℕ} (hD : D ≠ 0) (hlen : 26 ≤ bitlen (N / D)) :
    RoundsTo rm s ((N : ℚ) / D * 2 ^ e) (roundPack rm s e (N / D) (decide (N % D ≠ 0))) := by
  have hD_pos : (0 : ℚ) < D := Nat.cast_pos.2 (Nat.pos_of_ne_zero hD)
  have hQ : N / D ≠ 0 := fun h => by simp [h] at hlen
  have hfraction_lt : ((N % D : ℕ) : ℚ) / D < 1 :=
    (div_lt_one hD_pos).2 (mod_cast Nat.mod_lt N (Nat.pos_of_ne_zero hD))
  have hsticky : decide (N % D ≠ 0) = true ↔ (0 : ℚ) < (N % D : ℕ) / D := by
    rw [decide_eq_true_iff, div_pos_iff_of_pos_right hD_pos, Nat.cast_pos, Nat.pos_iff_ne_zero]
  rw [← quotient_add_fraction N hD]
  exact roundPack_roundsTo rm s e hQ (by positivity) hfraction_lt hsticky fun _ => hlen

/-- The quotient of normalised significands has at least 26 bits (R61). -/
theorem bitlen_quotient_ge (ea eb : ℤ) {ma mb : ℕ} (ha : ma ≠ 0) (ha_lt : ma < 2 ^ 24) (hb : mb ≠ 0)
    (hb_lt : mb < 2 ^ 24) : 26 ≤ bitlen (((normalise ea ma).2 <<< 26) / (normalise eb mb).2) := by
  obtain ⟨ha_low, -⟩ := normalise_snd_bounds ea ha ha_lt
  obtain ⟨hb_low, hb_high⟩ := normalise_snd_bounds eb hb hb_lt
  have hquotient : 2 ^ 25 ≤ ((normalise ea ma).2 <<< 26) / (normalise eb mb).2 := by
    rw [Nat.shiftLeft_eq, Nat.le_div_iff_mul_le (by omega)]
    omega
  exact not_lt.1 fun h => absurd (bitlen_le_iff.1 (Nat.lt_succ_iff.1 h)) hquotient.not_gt

/-! ### The exact quotient (R39, R42, R61) -/

/-- Normalising keeps the magnitude of an operand. -/
theorem Unpacked.mag_eq_normalised (x : Unpacked) :
    x.mag = (normalise x.e x.m).2 * 2 ^ ((normalise x.e x.m).1 - 23) :=
  (normalise_value x.e x.m).symm

/-- The quotient `N / mb' * 2^(ea' - eb' - 26)` that R61 rounds is that of the operands' magnitudes. -/
theorem Unpacked.mag_div_mag (x y : Unpacked) :
    x.mag / y.mag = (((normalise x.e x.m).2 <<< 26 : ℕ) : ℚ) / (normalise y.e y.m).2 *
      2 ^ ((normalise x.e x.m).1 - (normalise y.e y.m).1 - 26) := by
  have hexp : (2 : ℚ) ^ ((normalise x.e x.m).1 - 23) / 2 ^ ((normalise y.e y.m).1 - 23) =
      2 ^ 26 * 2 ^ ((normalise x.e x.m).1 - (normalise y.e y.m).1 - 26) := by
    rw [← zpow_sub₀ two_ne_zero, ← zpow_natCast, ← zpow_add₀ two_ne_zero]
    congr 1
    push_cast
    ring
  rw [mag_eq_normalised x, mag_eq_normalised y, mul_div_mul_comm, hexp, Nat.shiftLeft_eq]
  push_cast
  ring

theorem abs_val_div_val (a b : Word) : |val a / val b| = (unpack a).mag / (unpack b).mag := by
  rw [abs_div, abs_val, abs_val, unpack_mag, unpack_mag]

/-- The quotient of nonzero operands is rounded once, subnormal ones included (R61). -/
theorem divFinite_roundsTo (rm : Rm) (s : Bool) {a b : Word} (ha0 : ¬ IsZero a) (hb0 : ¬ IsZero b) :
    RoundsTo rm s |val a / val b| (divFinite rm s (unpack a) (unpack b)) := by
  have ha_m : (unpack a).m ≠ 0 := mt (unpack_m_eq_zero_iff a).1 ha0
  have hb_m : (unpack b).m ≠ 0 := mt (unpack_m_eq_zero_iff b).1 hb0
  obtain ⟨hb_low, -⟩ := normalise_snd_bounds (unpack b).e hb_m (unpack_m_lt b)
  rw [abs_val_div_val, Unpacked.mag_div_mag]
  exact roundPack_quotient_roundsTo rm s _ (by omega)
    (bitlen_quotient_ge _ _ ha_m (unpack_m_lt a) hb_m (unpack_m_lt b))

/-! ### The command (R61) -/

theorem decode_div (a b : Word) : decode ⟨0x0C#8, a, b⟩ = .instr (.div .rne a b) :=
  decodeWith_cmdByte Config.rmExt 0#3 0x0C#5 a b

/-- R61's pseudocode line by line, on the classes of the patterns. -/
theorem fdiv_eq (rm : Rm) (a b : Word) :
    fdiv rm a b =
      if IsNaN a ∨ IsNaN b then Config.canonNaN
      else if IsInf a then (if IsInf b then Config.canonNaN else infOf (signBit a ^^ signBit b))
      else if IsInf b then zeroOf (signBit a ^^ signBit b)
      else if IsZero b then (if IsZero a then Config.canonNaN else infOf (signBit a ^^ signBit b))
      else if IsZero a then zeroOf (signBit a ^^ signBit b)
      else divFinite rm (signBit a ^^ signBit b) (unpack a) (unpack b) := by
  simp only [fdiv, divUnpacked, unpack_cls, unpack_sign, classify_eq_nan_iff, classify_eq_infinity_iff,
    classify_eq_zero_iff, packInf_eq, packZero_eq]

/-- `DIV` answers by R61's table. -/
theorem fdiv_divTable (rm : Rm) (a b : Word) : DivTable rm a b (fdiv rm a b) := by
  unfold DivTable
  split_ifs with hnan hinvalid hinf hzero
  · rw [fdiv_eq, if_pos hnan]
  · rw [fdiv_eq, if_neg hnan]
    rcases hinvalid with ⟨hinfa, hinfb⟩ | ⟨hzeroa, hzerob⟩
    · rw [if_pos hinfa, if_pos hinfb]
    · rw [if_neg fun hinfa => not_isZero_of_isInf hinfa hzeroa, if_neg fun hinfb => not_isZero_of_isInf hinfb hzerob,
        if_pos hzerob, if_pos hzeroa]
  · rw [fdiv_eq, if_neg hnan]
    by_cases hinfa : IsInf a
    · rw [if_pos hinfa, if_neg fun hinfb => hinvalid (.inl ⟨hinfa, hinfb⟩)]
    · have hzerob : IsZero b := hinf.resolve_left hinfa
      rw [if_neg hinfa, if_neg fun hinfb => not_isZero_of_isInf hinfb hzerob, if_pos hzerob,
        if_neg fun hzeroa => hinvalid (.inr ⟨hzeroa, hzerob⟩)]
  · obtain ⟨hinfa, hb0⟩ := not_or.1 hinf
    rw [fdiv_eq, if_neg hnan, if_neg hinfa, if_neg hb0]
    rcases hzero with hinfb | hzeroa
    · rw [if_pos hinfb]
    · rw [if_pos hzeroa, ite_self]
  · obtain ⟨hinfa, hb0⟩ := not_or.1 hinf
    obtain ⟨hinfb, ha0⟩ := not_or.1 hzero
    rw [fdiv_eq, if_neg hnan, if_neg hinfa, if_neg hinfb, if_neg hb0, if_neg ha0]
    exact divFinite_roundsTo rm _ ha0 hb0

/-- Settles O34, by `fdiv_divTable`. -/
theorem divRoundsTheExactQuotient : Obligations.DivRoundsTheExactQuotient := by
  intro rm a b s
  exact ⟨decode_div a b, fdiv rm a b, rfl, fdiv_divTable rm a b⟩

end Sys2Proof.Machine
end
section
/-! The order of the patterns as integers and of their values (spec/45_comparator.md R63; spec/40_numerics_common.md
R38, R39). -/

namespace Sys2Proof.Machine

/-! ### Magnitudes in units of the least subnormal -/

/-- The magnitude of the pattern whose bits 30:0 are `k`, in units of `2^(-149)`: exponent fields 0 and 1 share the
unit, and each one above doubles it. -/
def quanta (k : ℕ) : ℕ := (k - (k / 2 ^ 23 - 1) * 2 ^ 23) * 2 ^ (k / 2 ^ 23 - 1)

theorem quanta_lt_quanta_succ (k : ℕ) : quanta k < quanta (k + 1) := by
  unfold quanta
  generalize hn : k / 2 ^ 23 - 1 = n
  obtain hsame | ⟨hnext, hfull⟩ : (k + 1) / 2 ^ 23 - 1 = n ∨
      (k + 1) / 2 ^ 23 - 1 = n + 1 ∧ k + 1 - (n + 1) * 2 ^ 23 = 2 ^ 23 := by omega
  · rw [hsame]
    exact Nat.mul_lt_mul_of_pos_right (by omega) (by positivity)
  · rw [hnext, hfull, pow_succ' 2 n, ← mul_assoc]
    exact Nat.mul_lt_mul_of_pos_right (by omega) (by positivity)

/-- Magnitude is strictly increasing in the integer `x[30:0]`. -/
theorem quanta_strictMono : StrictMono quanta := strictMono_nat_of_lt_succ quanta_lt_quanta_succ

theorem toNat_magField (x : Word) : (magField x).toNat = (expField x).toNat * 2 ^ 23 + (fracField x).toNat := by
  simp only [magField, expField, fracField, BitVec.extractLsb'_toNat]
  omega

theorem magnitude_eq_quanta (x : Word) : magnitude x = quanta (magField x).toNat * 2 ^ (-149 : ℤ) := by
  have hfrac := (fracField x).isLt
  rw [toNat_magField, magnitude, quanta]
  split_ifs with hexp
  · have hdiv : (fracField x).toNat / 2 ^ 23 = 0 := by omega
    rw [hexp, BitVec.toNat_ofNat, Nat.zero_mod, zero_mul, zero_add, hdiv]
    simp
  · have hpos : (expField x).toNat ≠ 0 := fun h => hexp (BitVec.eq_of_toNat_eq h)
    obtain ⟨n, hn⟩ := Nat.exists_eq_succ_of_ne_zero hpos
    have hdiv : ((n + 1) * 2 ^ 23 + (fracField x).toNat) / 2 ^ 23 - 1 = n := by omega
    have hsig : (n + 1) * 2 ^ 23 + (fracField x).toNat - n * 2 ^ 23 = 2 ^ 23 + (fracField x).toNat := by omega
    have hscale : ((n + 1 : ℕ) : ℤ) - 127 - 23 = n + -149 := by push_cast; ring
    rw [hn, hdiv, hsig, hscale, zpow_add₀ two_ne_zero, zpow_natCast]
    push_cast
    ring

theorem magnitude_lt_iff (a b : Word) : magnitude a < magnitude b ↔ magField a < magField b := by
  have hunit : (0 : ℚ) < 2 ^ (-149 : ℤ) := by positivity
  rw [magnitude_eq_quanta, magnitude_eq_quanta, mul_lt_mul_iff_left₀ hunit, Nat.cast_lt, quanta_strictMono.lt_iff_lt,
    BitVec.lt_def]

theorem magnitude_inj {a b : Word} : magnitude a = magnitude b ↔ magField a = magField b := by
  have hunit : (2 : ℚ) ^ (-149 : ℤ) ≠ 0 := by positivity
  rw [magnitude_eq_quanta, magnitude_eq_quanta, mul_left_inj' hunit, Nat.cast_inj, quanta_strictMono.injective.eq_iff,
    BitVec.toNat_inj]

theorem magnitude_eq_zero_iff (x : Word) : magnitude x = 0 ↔ magField x = 0#31 := by
  have hzero : magnitude 0#32 = 0 := by rw [magnitude_eq_quanta]; simp [magField, quanta]
  rw [← hzero, magnitude_inj]
  rfl

/-- The sign and the magnitude `x[30:0]` are the whole pattern. -/
theorem eq_of_signBit_magField {a b : Word} (hsign : signBit a = signBit b) (hmag : magField a = magField b) :
    a = b := by
  have ha := toNat_magField a
  have hb := toNat_magField b
  have hfa := (fracField a).isLt
  have hfb := (fracField b).isLt
  rw [hmag] at ha
  refine word_ext hsign ?_ ?_ <;> apply BitVec.eq_of_toNat_eq <;> omega

theorem magField_eq_zero_iff (x : Word) : magField x = 0#31 ↔ IsZero x := by
  have hx := toNat_magField x
  simp only [IsZero, BitVec.toNat_eq, BitVec.toNat_ofNat, Nat.zero_mod]
  omega

theorem magnitude_nonneg (x : Word) : 0 ≤ magnitude x := abs_val x ▸ abs_nonneg _

theorem val_of_signBit_true {x : Word} (h : signBit x = true) : val x = -magnitude x := if_pos h

theorem val_of_signBit_false {x : Word} (h : signBit x = false) : val x = magnitude x := by
  rw [val, h, if_neg Bool.false_ne_true]

/-- Two patterns have the same signed magnitude only if they are the same one or two zeros (R39). -/
theorem val_inj_iff (a b : Word) : val a = val b ↔ a = b ∨ IsZero a ∧ IsZero b := by
  constructor
  · intro hval
    have hmag : magnitude a = magnitude b := by rw [← abs_val, ← abs_val, hval]
    by_cases hsign : signBit a = signBit b
    · exact .inl (eq_of_signBit_magField hsign (magnitude_inj.1 hmag))
    · have hzero : magnitude a = 0 := by
        cases hb : signBit b with
        | false =>
          rw [val_of_signBit_true (by simpa [hb] using hsign), val_of_signBit_false hb] at hval
          linarith
        | true =>
          rw [val_of_signBit_false (by simpa [hb] using hsign), val_of_signBit_true hb] at hval
          linarith
      have hzero' : magnitude b = 0 := hmag ▸ hzero
      rw [magnitude_eq_zero_iff, magField_eq_zero_iff] at hzero hzero'
      exact .inr ⟨hzero, hzero'⟩
  · rintro (rfl | ⟨ha, hb⟩)
    · rfl
    · rw [val_of_isZero ha, val_of_isZero hb]

/-! ### The infinities as the ends of the order (R63) -/

/-- The formula of R39 gives an infinity the magnitude `2^128`. -/
theorem magnitude_of_isInf {x : Word} (h : IsInf x) : magnitude x = 2 ^ 128 := by
  have hne : ¬ (255#8 = 0#8) := by decide
  norm_num [magnitude, h.1, h.2, hne]

theorem magnitude_lt_of_isFinite {x : Word} (h : IsFinite x) : magnitude x < 2 ^ 128 := by
  have hexp : (expField x).toNat ≠ 255 := fun h255 => h (BitVec.eq_of_toNat_eq h255)
  have hrange := (expField x).isLt
  have hfrac := (fracField x).isLt
  have hinf : magField 0x7F800000#32 = 0x7F800000#31 := by decide
  rw [← magnitude_of_isInf (x := 0x7F800000#32) (by decide), magnitude_lt_iff, hinf, BitVec.lt_def, toNat_magField]
  norm_num
  omega

/-- The signed magnitudes with both ends taken for the infinities. -/
def extend (v : ℚ) : WithBot (WithTop ℚ) :=
  if v ≤ -2 ^ 128 then ⊥ else if v < 2 ^ 128 then ((v : WithTop ℚ) : WithBot (WithTop ℚ))
  else ((⊤ : WithTop ℚ) : WithBot (WithTop ℚ))

theorem extend_strictMonoOn : StrictMonoOn extend (Set.Icc (-2 ^ 128) (2 ^ 128)) := by
  intro v hv w hw hlt
  obtain ⟨hv_low, -⟩ := hv
  obtain ⟨-, hw_high⟩ := hw
  have hw_low : ¬ w ≤ -2 ^ 128 := by linarith
  have hv_high : v < 2 ^ 128 := by linarith
  unfold extend
  rw [if_neg hw_low, if_pos hv_high]
  split_ifs
  · exact WithBot.bot_lt_coe _
  · exact WithBot.bot_lt_coe _
  · exact WithBot.coe_lt_coe.2 (WithTop.coe_lt_coe.2 hlt)
  · exact WithBot.coe_lt_coe.2 (WithTop.coe_lt_top v)

theorem extVal_eq_extend {x : Word} (h : ¬ IsNaN x) : extVal x = extend (val x) := by
  by_cases hinf : IsInf x
  · rw [extVal, if_pos hinf, val, magnitude_of_isInf hinf]
    cases signBit x <;> norm_num [extend]
  · have hmag := magnitude_lt_of_isFinite (isFinite_of_not_special h hinf)
    rw [← abs_val, abs_lt] at hmag
    rw [extVal, if_neg hinf, extend, if_neg hmag.1.not_ge, if_pos hmag.2]

theorem val_mem_Icc {x : Word} (h : ¬ IsNaN x) : val x ∈ Set.Icc (-2 ^ 128 : ℚ) (2 ^ 128) := by
  rw [Set.mem_Icc, ← abs_le, abs_val]
  by_cases hinf : IsInf x
  · exact (magnitude_of_isInf hinf).le
  · exact (magnitude_lt_of_isFinite (isFinite_of_not_special h hinf)).le

/-- Off the NaNs the extended values are ordered as the signed magnitudes. -/
theorem extVal_lt_extVal_iff {a b : Word} (ha : ¬ IsNaN a) (hb : ¬ IsNaN b) :
    extVal a < extVal b ↔ val a < val b := by
  rw [extVal_eq_extend ha, extVal_eq_extend hb, extend_strictMonoOn.lt_iff_lt (val_mem_Icc ha) (val_mem_Icc hb)]

theorem extVal_eq_extVal_iff {a b : Word} (ha : ¬ IsNaN a) (hb : ¬ IsNaN b) :
    extVal a = extVal b ↔ val a = val b := by
  rw [extVal_eq_extend ha, extVal_eq_extend hb, extend_strictMonoOn.injOn.eq_iff (val_mem_Icc ha) (val_mem_Icc hb)]

end Sys2Proof.Machine
end

section
/-! The comparator: `rel` and the seven commands that report it (spec/45_comparator.md R63 to R70). -/

namespace Sys2Proof.Machine

/-! ### The relation (R63) -/

/-- R63's tests on the pattern bits are tests on the signs and the magnitudes. -/
theorem rel_eq (a b : Word) :
    rel a b =
      if IsNaN a ∨ IsNaN b then .un
      else if magnitude a = 0 ∧ magnitude b = 0 then .eq
      else if signBit a ≠ signBit b then (if signBit a = true then .lt else .gt)
      else if magnitude a = magnitude b then .eq
      else if signBit a = false then (if magnitude a < magnitude b then .lt else .gt)
      else (if magnitude b < magnitude a then .lt else .gt) := by
  simp only [rel, classify_eq_nan_iff, magnitude_eq_zero_iff, magnitude_inj, magnitude_lt_iff]

theorem rel_of_isNaN {a b : Word} (h : IsNaN a ∨ IsNaN b) : rel a b = .un := by
  rw [rel_eq, if_pos h]

/-- R63's tests find the order of the signed magnitudes. -/
theorem rel_val_cases {a b : Word} (ha : ¬ IsNaN a) (hb : ¬ IsNaN b) :
    (rel a b = .lt ∧ val a < val b) ∨ (rel a b = .eq ∧ val a = val b) ∨ (rel a b = .gt ∧ val b < val a) := by
  have hpos (hzero : ¬ (magnitude a = 0 ∧ magnitude b = 0)) : 0 < magnitude a + magnitude b :=
    (add_nonneg (magnitude_nonneg a) (magnitude_nonneg b)).lt_of_ne'
      (mt (add_eq_zero_iff_of_nonneg (magnitude_nonneg a) (magnitude_nonneg b)).1 hzero)
  rw [rel_eq, if_neg (not_or.2 ⟨ha, hb⟩)]
  by_cases hzero : magnitude a = 0 ∧ magnitude b = 0
  · exact .inr (.inl ⟨if_pos hzero, by simp [val, hzero]⟩)
  rw [if_neg hzero]
  cases hsa : signBit a <;> cases hsb : signBit b
  case false.false =>
    rw [val_of_signBit_false hsa, val_of_signBit_false hsb]
    rcases lt_trichotomy (magnitude a) (magnitude b) with hlt | heq | hgt
    · exact .inl ⟨by simp [hlt, hlt.ne], hlt⟩
    · exact .inr (.inl ⟨by simp [heq], heq⟩)
    · exact .inr (.inr ⟨by simp [hgt.le, hgt.ne'], hgt⟩)
  case false.true =>
    rw [val_of_signBit_false hsa, val_of_signBit_true hsb]
    exact .inr (.inr ⟨by simp, by linarith [hpos hzero]⟩)
  case true.false =>
    rw [val_of_signBit_true hsa, val_of_signBit_false hsb]
    exact .inl ⟨by simp, by linarith [hpos hzero]⟩
  case true.true =>
    rw [val_of_signBit_true hsa, val_of_signBit_true hsb]
    rcases lt_trichotomy (magnitude a) (magnitude b) with hlt | heq | hgt
    · exact .inr (.inr ⟨by simp [hlt.le, hlt.ne], neg_lt_neg hlt⟩)
    · exact .inr (.inl ⟨by simp [heq], neg_inj.2 heq⟩)
    · exact .inl ⟨by simp [hgt, hgt.ne'], neg_lt_neg hgt⟩

/-- `rel` is the order of the extended values, and unordered exactly with a NaN. -/
theorem rel_extVal_cases (a b : Word) :
    (rel a b = .un ∧ (IsNaN a ∨ IsNaN b)) ∨
    (¬ IsNaN a ∧ ¬ IsNaN b ∧
      ((rel a b = .lt ∧ extVal a < extVal b) ∨ (rel a b = .eq ∧ extVal a = extVal b) ∨
        (rel a b = .gt ∧ extVal b < extVal a))) := by
  by_cases hnan : IsNaN a ∨ IsNaN b
  · exact .inl ⟨rel_of_isNaN hnan, hnan⟩
  · obtain ⟨ha, hb⟩ := not_or.1 hnan
    rw [extVal_lt_extVal_iff ha hb, extVal_eq_extVal_iff ha hb, extVal_lt_extVal_iff hb ha]
    exact .inr ⟨ha, hb, rel_val_cases ha hb⟩

/-- The three codes of an ordered pair, each characterised by the extended values (R63). -/
theorem rel_iff_extVal (a b : Word) :
    (rel a b = .lt ↔ ¬ IsNaN a ∧ ¬ IsNaN b ∧ extVal a < extVal b) ∧
    (rel a b = .eq ↔ ¬ IsNaN a ∧ ¬ IsNaN b ∧ extVal a = extVal b) ∧
    (rel a b = .gt ↔ ¬ IsNaN a ∧ ¬ IsNaN b ∧ extVal b < extVal a) := by
  rcases rel_extVal_cases a b with ⟨hrel, hnan⟩ | ⟨ha, hb, ⟨hrel, hlt⟩ | ⟨hrel, heq⟩ | ⟨hrel, hgt⟩⟩
  · have hnot (p : Prop) : ¬ (¬ IsNaN a ∧ ¬ IsNaN b ∧ p) := fun ⟨ha, hb, _⟩ => hnan.elim ha hb
    simp only [hrel, reduceCtorEq, hnot, and_self]
  · simp only [hrel, reduceCtorEq, ha, hb, hlt, hlt.ne, hlt.not_gt, not_false_iff, true_and, and_self]
  · simp only [hrel, reduceCtorEq, ha, hb, heq, lt_irrefl, not_false_iff, true_and, and_self]
  · simp only [hrel, reduceCtorEq, ha, hb, hgt, hgt.ne', hgt.not_gt, not_false_iff, true_and, and_self]

/-- Exchanging the operands exchanges `LT` and `GT`. -/
theorem rel_eq_gt_iff_swap (a b : Word) : rel a b = .gt ↔ rel b a = .lt := by
  obtain ⟨-, -, hgt⟩ := rel_iff_extVal a b
  obtain ⟨hlt, -, -⟩ := rel_iff_extVal b a
  rw [hgt, hlt, and_left_comm]

theorem rel_eq_eq_iff_swap (a b : Word) : rel a b = .eq ↔ rel b a = .eq := by
  obtain ⟨-, heq, -⟩ := rel_iff_extVal a b
  obtain ⟨-, heq', -⟩ := rel_iff_extVal b a
  rw [heq, heq', and_left_comm, eq_comm]

theorem rel_lt_or_eq_iff (a b : Word) :
    rel a b = .lt ∨ rel a b = .eq ↔ ¬ IsNaN a ∧ ¬ IsNaN b ∧ extVal a ≤ extVal b := by
  obtain ⟨hlt, heq, -⟩ := rel_iff_extVal a b
  rw [hlt, heq, ← and_or_left, ← and_or_left, le_iff_lt_or_eq]

theorem rel_gt_or_eq_iff_swap (a b : Word) :
    rel a b = .gt ∨ rel a b = .eq ↔ rel b a = .lt ∨ rel b a = .eq := by
  rw [rel_eq_gt_iff_swap, rel_eq_eq_iff_swap]

/-- Equality of values is equality of bits, but for the two zeros and the NaNs (R65). -/
theorem rel_eq_eq_iff_bits (a b : Word) : rel a b = .eq ↔ (a = b ∧ ¬ IsNaN a) ∨ (IsZero a ∧ IsZero b) := by
  obtain ⟨-, heq, -⟩ := rel_iff_extVal a b
  rw [heq]
  constructor
  · rintro ⟨ha, hb, hval⟩
    rw [extVal_eq_extVal_iff ha hb, val_inj_iff] at hval
    exact hval.imp_left fun hbits => ⟨hbits, ha⟩
  · rintro (⟨rfl, ha⟩ | ⟨ha, hb⟩)
    · exact ⟨ha, ha, rfl⟩
    · have hna : ¬ IsNaN a := fun hnan => isFinite_of_isZero ha hnan.1
      have hnb : ¬ IsNaN b := fun hnan => isFinite_of_isZero hb hnan.1
      rw [extVal_eq_extVal_iff hna hnb, val_inj_iff]
      exact ⟨hna, hnb, .inr ⟨ha, hb⟩⟩

/-! ### The commands (R64 to R70) -/

theorem truthWord_decide_not (p : Prop) [Decidable p] :
    truthWord (decide ¬ p) = if decide p then 0#32 else 1#32 := by
  by_cases hp : p <;> simp [truthWord, hp]

theorem exec_ne (a b : Word) (s : State) :
    exec (.ne a b) s =
      .next { s with phase := .done ⟨if decide (rel a b = .eq) then 0#32 else 1#32, 0#32, false⟩ } := by
  rw [exec_eq_responseOf, responseOf, truthWord_decide_not]

theorem exec_gt_eq_exec_lt (a b : Word) (s : State) : exec (.gt a b) s = exec (.lt b a) s := by
  simp only [exec_eq_responseOf, responseOf, rel_eq_gt_iff_swap a b]

theorem exec_ge_eq_exec_le (a b : Word) (s : State) : exec (.ge a b) s = exec (.le b a) s := by
  simp only [exec_eq_responseOf, responseOf, rel_gt_or_eq_iff_swap a b]

/-- Settles O36: the one-hot word of each code, which `rel_iff_extVal` gives. -/
theorem cmpReportsTheValueOrder : Obligations.CmpReportsTheValueOrder := by
  intro a b s
  obtain ⟨hlt, heq, hgt⟩ := rel_iff_extVal a b
  refine ⟨decodeWith_cmdByte _ 0#3 0x10#5 a b, relWord (rel a b), rfl, ?_, fun ha hb => ⟨?_, ?_, ?_⟩⟩ <;> intro h
  · rw [rel_of_isNaN h]; rfl
  · rw [hlt.2 ⟨ha, hb, h⟩]; rfl
  · rw [heq.2 ⟨ha, hb, h⟩]; rfl
  · rw [hgt.2 ⟨ha, hb, h⟩]; rfl

/-- Settles O37: the truth value is that of `rel a b = EQ`, characterised by the values and by the bits. -/
theorem eqIsValueEqualityAndNeItsComplement : Obligations.EqIsValueEqualityAndNeItsComplement := by
  intro a b s
  obtain ⟨-, heq, -⟩ := rel_iff_extVal a b
  exact ⟨decodeWith_cmdByte _ 0#3 0x11#5 a b, decodeWith_cmdByte _ 0#3 0x12#5 a b,
    decide (rel a b = .eq), rfl, exec_ne a b s,
    decide_eq_true_iff.trans heq, decide_eq_true_iff.trans (rel_eq_eq_iff_bits a b)⟩

/-- Settles O38: `LT` and `GT` are the order by `rel_iff_extVal`, `LE` by `rel_lt_or_eq_iff`, and `GE` is `LE` with the
operands exchanged. -/
theorem orderPredicatesAreTheValueOrder : Obligations.OrderPredicatesAreTheValueOrder := by
  intro a b s
  obtain ⟨hlt, -, hgt⟩ := rel_iff_extVal a b
  have hle := rel_lt_or_eq_iff a b
  have hge : rel a b = .gt ∨ rel a b = .eq ↔ ¬ IsNaN a ∧ ¬ IsNaN b ∧ extVal b ≤ extVal a := by
    rw [rel_gt_or_eq_iff_swap, rel_lt_or_eq_iff, and_left_comm]
  refine ⟨decodeWith_cmdByte _ 0#3 0x13#5 a b, decodeWith_cmdByte _ 0#3 0x14#5 a b,
    decodeWith_cmdByte _ 0#3 0x15#5 a b, decodeWith_cmdByte _ 0#3 0x16#5 a b, ?_,
    exec_gt_eq_exec_lt a b s, exec_ge_eq_exec_le a b s⟩
  exact ⟨decide (rel a b = .lt), decide (rel a b = .lt ∨ rel a b = .eq),
    decide (rel a b = .gt), decide (rel a b = .gt ∨ rel a b = .eq), rfl, rfl, rfl, rfl,
    decide_eq_true_iff.trans hlt, decide_eq_true_iff.trans hle, decide_eq_true_iff.trans hgt,
    decide_eq_true_iff.trans hge⟩

end Sys2Proof.Machine
end

section
/-! Encoding and decoding are inverse to each other (spec/30_encoding.md R30 to R33). -/

namespace Sys2Proof.Machine

/-- The decoder reads a legal rounding mode back from its code (R32). -/
theorem roundingForm_code {ext : Bool} {rm : Rm} (h : rm.legal ext = true) (f : Rm → Instr) :
    roundingForm ext rm.code f = .instr (f rm) := by
  rw [roundingForm, decodeRm_code h]

/-- Settles O13: the command byte selects the instruction by its two fields, a rounding mode is read back from its
code, and the SE word gives back its sign and its exponent. -/
theorem decodeOfEncodeIsTheInstruction : Obligations.DecodeOfEncodeIsTheInstruction := by
  intro ext i hwf
  cases i <;> rw [encode, decodeWith_cmdByte]
  case compose rm m sign e =>
    calc decodeFields ext 0x03#5 rm.code m (seWord sign 0#3 e)
        = .instr (.compose rm m (seSign (seWord sign 0#3 e)) (seExp (seWord sign 0#3 e))) := roundingForm_code hwf _
      _ = .instr (.compose rm m sign e) := by rw [seSign_seWord, seExp_seWord]
  case add | sub | mul | div => exact roundingForm_code hwf _
  all_goals rfl

/-- A command byte is written from its `rm` field and the number of its `op` field. -/
theorem cmdByte_of_fields {cmd : Byte} {rm : BitVec 3} {op : ℕ} (hrm : rm = rmField cmd)
    (hop : (opField cmd).toNat = op) : cmdByte rm (BitVec.ofNat 5 op) = cmd := by
  rw [hrm, ← hop, BitVec.ofNat_toNat, BitVec.setWidth_eq, cmdByte_fields]

/-- Settles O14, along the rows of the decoder: each selects by the two fields that the encoder writes, and keeps the
operand bits that its format does not ignore. -/
theorem encodeOfDecodeIsTheCommand : Obligations.EncodeOfDecodeIsTheCommand := by
  intro ext c i h
  unfold decodeWith decodeFields at h
  split at h
  case h_15 => cases h
  all_goals
    rename_i hop
    simp only [plainForm_eq_instr_iff, roundingForm_eq_instr_iff] at h
  case h_3 =>
    obtain ⟨m, hm, rfl⟩ := h
    obtain ⟨hlegal, hcode⟩ := decodeRm_eq_some hm
    refine ⟨hlegal, cmdByte_of_fields hcode hop, rfl, fun _ => ⟨seSign_seWord .., seExp_seWord ..⟩, fun hother => ?_⟩
    simp [BitVec.toNat_eq, hop] at hother
  case h_4 | h_5 | h_6 | h_7 =>
    obtain ⟨m, hm, rfl⟩ := h
    obtain ⟨hlegal, hcode⟩ := decodeRm_eq_some hm
    exact ⟨hlegal, cmdByte_of_fields hcode hop, rfl, fun _ => ⟨rfl, rfl⟩, fun _ => rfl⟩
  all_goals
    obtain ⟨hzero, rfl⟩ := h
    have hrm : 0#3 = rmField c.cmd := (BitVec.eq_of_toNat_eq hzero).symm
  case h_1 | h_2 =>
    refine ⟨rfl, cmdByte_of_fields hrm hop, rfl, fun hcompose => ?_, fun hother => ?_⟩
    · simp [BitVec.toNat_eq, hop] at hcompose
    · simp [BitVec.toNat_eq, hop] at hother
  all_goals exact ⟨rfl, cmdByte_of_fields hrm hop, rfl, fun _ => ⟨rfl, rfl⟩, fun _ => rfl⟩

/-- Settles O15, by evaluating the decoder. -/
theorem writtenOutCommandsDecode : Obligations.WrittenOutCommandsDecode := by
  unfold Obligations.WrittenOutCommandsDecode
  decide

/-- COMPLETE reads a command through the decoder alone (R37). -/
theorem runCommand_congr {ext : Bool} {c c' : Command} (h : decodeWith ext c = decodeWith ext c') (s : State) :
    runCommand ext c s = runCommand ext c' s := by
  rw [runCommand, runCommand, h]

/-- Settles O17: the decoder's rows for the three operations do not read the ignored bits. -/
theorem ignoredOperandBitsHaveNoEffect : Obligations.IgnoredOperandBitsHaveNoEffect := by
  intro ext cmd a b b' s
  refine ⟨fun hop => runCommand_congr ?_ s, fun hop hsign hexp => runCommand_congr ?_ s⟩
  · rcases hop with hop | hop
    · rw [decodeWith, decodeWith, hop]; rfl
    · rw [decodeWith, decodeWith, hop]; rfl
  · have hsign' : seSign b = seSign b' := hsign
    have hexp' : seExp b = seExp b' := hexp
    calc decodeWith ext ⟨cmd, a, b⟩
        = roundingForm ext (rmField cmd) fun m => .compose m a (seSign b) (seExp b) := by rw [decodeWith, hop]; rfl
      _ = roundingForm ext (rmField cmd) fun m => .compose m a (seSign b') (seExp b') := by rw [hsign', hexp']
      _ = decodeWith ext ⟨cmd, a, b'⟩ := by rw [decodeWith, hop]; rfl

end Sys2Proof.Machine
end

section
/-! The invariant, the frame of the commands, and the edge that takes COMPLETE (spec/10_state.md R11,
spec/30_encoding.md R34). -/

namespace Sys2Proof.Machine

/-! ### Lawful responses (R34, R40, R51) -/

theorem lawful_of_z_eq_zero (y : Word) : Response.Lawful ⟨y, 0#32, false⟩ :=
  ⟨fun herr => absurd herr Bool.false_ne_true, fun hz => absurd rfl hz⟩

theorem lawful_illegal : Response.Lawful ⟨0#32, 0#32, true⟩ :=
  ⟨fun _ => ⟨rfl, rfl⟩, fun hz => absurd rfl hz⟩

theorem code_le_four (k : FpClass) : k.code.toNat ≤ 4 := by
  cases k <;> decide

/-- The two words of `DECOMP` are in the ranges that R40 and R51 give. -/
theorem lawful_decomp (a : Word) : Response.Lawful ⟨decompY a, decompZ a, false⟩ := by
  refine ⟨fun herr => absurd herr Bool.false_ne_true, fun _ => ?_⟩
  rw [decompY_toNat, decompZ_zeros, decompZ_code, decompZ_exp, toInt_ofInt_unpack_e]
  exact ⟨unpack_m_lt a, rfl, code_le_four _, unpack_e_range a⟩

/-- Beside every result but that of `DECOMP` stands a zero (R34). -/
theorem lawful_responseOf (i : Instr) : (responseOf i).Lawful := by
  cases i
  case decomp a => exact lawful_decomp a
  all_goals exact lawful_of_z_eq_zero _

theorem lawful_respondTo (ext : Bool) (c : Command) : (respondTo ext c).Lawful := by
  cases hlegal : legal ext c.cmd with
  | true =>
    obtain ⟨i, hi⟩ := (exists_decodeWith_eq_instr_iff ext c).2 hlegal
    rw [respondTo_of_decodeWith_instr hi]
    exact lawful_responseOf i
  | false =>
    rw [respondTo_of_not_legal hlegal]
    exact lawful_illegal

/-! ### The invariant, phase by phase -/

theorem inv_iff_of_idle {s : State} (hp : s.phase = .idle) : s.Inv ↔ s.slack = 0 := by
  rw [State.Inv, hp]

theorem inv_of_busy {s : State} {c : Command} (hp : s.phase = .busy c) : s.Inv := by
  rw [State.Inv, hp]
  trivial

theorem inv_iff_of_done {s : State} {r : Response} (hp : s.phase = .done r) :
    s.Inv ↔ s.slack = 0 ∧ r.Lawful := by
  rw [State.Inv, hp]

/-- Settles O11, by the invariant of the phase `IDLE`. -/
theorem invariantHoldsAtReset : Obligations.InvariantHoldsAtReset :=
  (inv_iff_of_idle reset_phase).2 reset_slack

/-- Settles O12, along what one clock edge can do. Only COMPLETE puts a response on the port, at slack 0, and R37's
table is lawful; the other edges keep the response or take it away. -/
theorem everyStepKeepsTheInvariant : Obligations.EveryStepKeepsTheInvariant := by
  intro s t hinv hstep
  rcases clockEdge_cases hstep with ⟨-, rfl⟩ | ⟨-, hp, -, rfl⟩ | ⟨-, hp, -, rfl⟩ | ⟨-, c, hp, hz, hrun⟩ |
    ⟨-, c, hp, -, rfl⟩ | ⟨-, r, hp, -, rfl⟩ | ⟨-, r, hp, -, rfl⟩
  · exact (inv_iff_of_idle rfl).2 rfl
  · exact inv_of_busy rfl
  · exact (inv_iff_of_idle (s := tick s) hp).2 ((inv_iff_of_idle hp).1 hinv)
  · rw [runCommand_eq_respondTo] at hrun
    injection hrun with hrun
    subst hrun
    exact (inv_iff_of_done rfl).2 ⟨hz, lawful_respondTo Config.rmExt c⟩
  · exact inv_of_busy (s := wait (tick s)) hp
  · exact (inv_iff_of_idle rfl).2 ((inv_iff_of_done hp).1 hinv).1
  · exact (inv_iff_of_done (s := tick s) hp).2 ((inv_iff_of_done hp).1 hinv)

/-! ### The frame of the commands and the edge that takes COMPLETE -/

/-- Settles O19, by `exec_cases`: both kinds of answer are a `respond`, which writes the phase alone. -/
theorem everyCommandWritesOnlyThePhase : Obligations.EveryCommandWritesOnlyThePhase := by
  intro i s t h
  rcases exec_cases h with ⟨y, rfl⟩ | ⟨a, rfl, rfl⟩
  · exact ⟨rfl, rfl, rfl, y, 0#32, rfl, fun _ => rfl⟩
  · exact ⟨rfl, rfl, rfl, decompY a, decompZ a, rfl, fun hother => absurd rfl (hother a)⟩

/-- Settles O7, by `exists_clockEdge_eq_next`. -/
theorem everyStepAnswersNext : Obligations.EveryStepAnswersNext := exists_clockEdge_eq_next

/-- Settles O6: the edge runs the decoded instruction, which by O14 is well-formed. -/
theorem stepRunsTheDecodedInstruction : Obligations.StepRunsTheDecodedInstruction := by
  intro s c i hp hz hr hdecode
  obtain ⟨hwf, -⟩ := encodeOfDecodeIsTheCommand Config.rmExt c i hdecode
  have hdecode' : decodeWith Config.rmExt c = .instr i := hdecode
  refine ⟨hwf, ?_⟩
  rw [step, clockEdge_complete _ s c hr hp hz, runCommand, hdecode']
  rfl

/-- The edge that takes COMPLETE offers the response of R37's table. -/
theorem step_complete {s : State} {c : Command} (hp : s.phase = .busy c) (hz : s.slack = 0)
    (hr : (pins s).rst = false) :
    step s = .next { tick s with phase := .done (respondTo Config.rmExt c) } := by
  rw [step, clockEdge_complete _ s c hr hp hz, runCommand_eq_respondTo]

/-- Settles O8, by `step_complete` from both states. -/
theorem responseDependsOnTheCommandOnly : Obligations.ResponseDependsOnTheCommandOnly := by
  intro s s' c hp hp' hz hz' hr hr'
  exact ⟨_, _, respondTo Config.rmExt c, step_complete hp hz hr, step_complete hp' hz' hr', rfl, rfl⟩

end Sys2Proof.Machine
end

section
/-! Reset, and the edges between ACCEPT and COMPLETE (spec/10_state.md R11, R20; spec/70_reset_and_hazards.md R79,
R83). -/

namespace Sys2Proof.Machine

/-! ### Reset (R20, R79) -/

theorem rspLines_of_idle {s : State} (hp : s.phase = .idle) : rspLines s = none := by
  rw [rspLines, hp]

theorem rspValid_of_idle {s : State} (hp : s.phase = .idle) : rspValid s = false := by
  rw [rspValid, rspLines_of_idle hp, Option.isSome_none]

theorem rspValid_of_busy {s : State} {c : Command} (hp : s.phase = .busy c) : rspValid s = false := by
  rw [rspValid, rspLines, hp, Option.isSome_none]

/-- Settles O1, by the output lines of the phase `IDLE`. -/
theorem resetLeavesTheBlockIdle : Obligations.ResetLeavesTheBlockIdle := by
  refine ⟨rfl, rspValid_of_idle rfl, rspLines_of_idle rfl, ?_⟩
  rw [reqReady, reset_phase, decide_eq_true rfl, Bool.true_and]

/-- Settles O2, by the event and the next state of a reset edge: neither reads the phase or the countdown. -/
theorem resetEdgeDiscardsAndForgets : Obligations.ResetEdgeDiscardsAndForgets := by
  intro s hr
  have hevent : eventAt s = .reset := eventAt_reset s hr
  have hstep (s : State) (hr : (pins s).rst = true) : step s = .next (resetBlock (tick s)) := clockEdge_reset _ s hr
  refine ⟨?_, fun c => ?_, fun r => ?_, ⟨_, hstep s hr, rfl, rspValid_of_idle rfl, rfl, rfl⟩, fun p k => ?_⟩
  · rw [reqReady, hr, Bool.not_true, Bool.and_false]
  · rw [hevent]; exact Event.noConfusion
  · rw [hevent]; exact Event.noConfusion
  · have hr' : (pins { s with phase := p, slack := k }).rst = true := hr
    rw [hstep s hr, hstep _ hr']
    rfl

/-! ### What an event says of the state -/

/-- A command is accepted in `IDLE` only, without a reset, and it is the one on the request lines (R10). -/
theorem of_eventAt_accepted {s : State} {c : Command} (h : eventAt s = .accepted c) :
    s.phase = .idle ∧ (pins s).rst = false ∧ (pins s).reqValid = true ∧ c = offered (pins s) := by
  cases hr : (pins s).rst with
  | true => rw [eventAt_reset s hr] at h; cases h
  | false =>
    cases hp : s.phase with
    | idle =>
      rw [eventAt_idle s hr hp] at h
      split_ifs at h with hv
      exact ⟨rfl, rfl, hv, (Event.accepted.inj h).symm⟩
    | busy c' => rw [eventAt_busy s c' hr hp] at h; cases h
    | done r =>
      rw [eventAt_done s r hr hp] at h
      split_ifs at h

theorem rst_of_eventAt_ne_reset {s : State} (h : eventAt s ≠ .reset) : (pins s).rst = false :=
  Bool.eq_false_iff.2 fun hr => h (eventAt_reset s hr)

theorem not_accepted_of_not_idle {s : State} (hp : s.phase ≠ .idle) (c : Command) : eventAt s ≠ .accepted c :=
  fun h => hp (of_eventAt_accepted h).1

/-- The edge of an ACCEPT leads to `BUSY` of the command, with the latency drawn at that edge (R10, R83). -/
theorem step_of_accepted {s : State} {c : Command} (h : eventAt s = .accepted c) :
    ∃ t, step s = .next t ∧ t.phase = .busy c ∧ t.slack = (nextEdge s).slack := by
  obtain ⟨hp, hr, hv, rfl⟩ := of_eventAt_accepted h
  refine ⟨accept (nextEdge s) (tick s), ?_, rfl, rfl⟩
  rw [step, clockEdge_idle _ s hr hp, if_pos hv]

/-- An edge in `BUSY` without a reset does not lead to `IDLE` (R11). -/
theorem not_idle_of_step_busy {s t : State} {c : Command} (hp : s.phase = .busy c) (hr : (pins s).rst = false)
    (hstep : step s = .next t) : t.phase ≠ .idle := by
  by_cases hz : s.slack = 0
  · rw [step_complete hp hz hr] at hstep
    cases hstep
    exact Phase.noConfusion
  · rw [step, clockEdge_wait _ s c hr hp hz] at hstep
    cases hstep
    rw [wait_phase, tick_phase, hp]
    exact Phase.noConfusion

/-- Settles O9: after an ACCEPT the block is `BUSY`, and after one more edge it is still not `IDLE`, where alone a
command is accepted. -/
theorem acceptsAreThreeEdgesApart : Obligations.AcceptsAreThreeEdgesApart := by
  intro s t u c haccept hstep hnoreset hstep'
  obtain ⟨t', hstep_t', hbusy, -⟩ := step_of_accepted haccept
  obtain rfl : t' = t := Host.Outcome.next.inj (hstep_t'.symm.trans hstep)
  have hnot_idle : t'.phase ≠ .idle := by rw [hbusy]; exact Phase.noConfusion
  exact ⟨rspValid_of_busy hbusy, not_accepted_of_not_idle hnot_idle,
    not_accepted_of_not_idle (not_idle_of_step_busy hbusy (rst_of_eventAt_ne_reset hnoreset) hstep')⟩

/-! ### The latency (R11, R83) -/

theorem run_zero (s : State) : Host.Core.run core 0 s = .next s := rfl

/-- A run of any machine goes on from its first step. -/
theorem run_succ_of_step (M : Host.Core) {s t : M.State} (h : M.step s = .next t) (k : ℕ) :
    M.run (k + 1) s = M.run k t := by
  rw [Host.Core.run, h]

theorem run_succ {s t : State} (h : step s = .next t) (k : ℕ) :
    Host.Core.run core (k + 1) s = Host.Core.run core k t :=
  run_succ_of_step core h k

theorem rst_of_resetFree_succ {s : State} {n : ℕ} (h : ResetFree (n + 1) s) : (pins s).rst = false := by
  obtain ⟨t, hstep⟩ : ∃ t, step s = .next t := exists_clockEdge_eq_next Config.rmExt s
  rw [ResetFree, events_succ hstep, List.mem_cons, not_or] at h
  exact rst_of_eventAt_ne_reset (Ne.symm h.1)

theorem resetFree_of_step {s t : State} {n : ℕ} (hstep : step s = .next t) (h : ResetFree (n + 1) s) :
    ResetFree n t := by
  rw [ResetFree, events_succ hstep, List.mem_cons, not_or] at h
  exact h.2

/-- A `BUSY` state with countdown `k` and no reset ahead waits for `k` edges and completes at the next one: an edge
with a positive countdown leads to a `BUSY` state with one less. -/
theorem run_of_busy (c : Command) (k : ℕ) {s : State} (hp : s.phase = .busy c) (hslack : s.slack = k)
    (hfree : ResetFree (k + 1) s) :
    (∀ j, j ≤ k → ∃ t : State, Host.Core.run core j s = .next t ∧ t.phase = .busy c) ∧
    ∃ t : State, Host.Core.run core (k + 1) s = .next t ∧ t.phase = .done (respondTo Config.rmExt c) := by
  have hr := rst_of_resetFree_succ hfree
  induction k generalizing s with
  | zero =>
    refine ⟨fun j hj => ?_, _, run_succ (step_complete hp hslack hr) 0, rfl⟩
    obtain rfl : j = 0 := Nat.le_zero.1 hj
    exact ⟨s, run_zero s, hp⟩
  | succ k ih =>
    have hstep : step s = .next (wait (tick s)) := clockEdge_wait _ s c hr hp (by omega)
    have hrest := resetFree_of_step hstep hfree
    have hslack' : (wait (tick s)).slack = k := by rw [wait_slack, tick_slack, hslack, Nat.add_sub_cancel]
    obtain ⟨hwaits, hcompletes⟩ := ih (s := wait (tick s)) hp hslack' hrest (rst_of_resetFree_succ hrest)
    rw [run_succ hstep]
    refine ⟨fun j hj => ?_, hcompletes⟩
    cases j with
    | zero => exact ⟨s, run_zero s, hp⟩
    | succ j =>
      rw [run_succ hstep]
      exact hwaits j (by omega)

/-- Settles O4, by `step_of_accepted` and `run_of_busy`. -/
theorem completeComesAfterTheLatency : Obligations.CompleteComesAfterTheLatency :=
  ⟨fun _ _ => step_of_accepted, fun s c hp => run_of_busy c s.slack hp rfl⟩

end Sys2Proof.Machine
end

section
/-! The signs of the results: `ADD` and `SUB` keep the sign of the exact sum, `MUL` and `DIV` take the exclusive or of
the operand signs (spec/40_numerics_common.md R41; spec/42_adder.md R58; spec/43_multiplier.md R60; spec/44_divider.md
R61, R62). -/

namespace Sys2Proof.Machine

/-- Settles O24, by the rules for the fields of `unpack`. -/
theorem unpackKeepsTheValue : Obligations.UnpackKeepsTheValue := fun x hfin =>
  ⟨unpack_mag x, unpack_m_lt x, (unpack_e_range x).1, unpack_e_le_of_finite hfin, unpack_sign x⟩

/-! ### The divider's quotient (R61) -/

/-- Settles O33: the dividend lies in `2^49 .. 2^50 - 1` and the divisor in `2^23 .. 2^24 - 1`. -/
theorem dividerQuotientHasGuardBits : Obligations.DividerQuotientHasGuardBits := by
  intro ea eb ma mb ha ha_lt hb hb_lt
  obtain ⟨ha_low, ha_high⟩ := normalise_snd_bounds ea (Nat.one_le_iff_ne_zero.1 ha) ha_lt
  obtain ⟨hb_low, hb_high⟩ := normalise_snd_bounds eb (Nat.one_le_iff_ne_zero.1 hb) hb_lt
  rw [Nat.shiftLeft_eq]
  constructor
  · rw [← Nat.succ_le_iff, Nat.le_div_iff_mul_le (by omega)]
    omega
  · rw [Nat.div_lt_iff_lt_mul (by omega)]
    omega

/-! ### The signs of products and quotients (R60, R62) -/

@[simp] theorem signBit_zeroOf (s : Bool) : signBit (zeroOf s) = s := by
  cases s <;> decide

@[simp] theorem signBit_infOf (s : Bool) : signBit (infOf s) = s := by
  cases s <;> decide

@[simp] theorem signBit_overflow (rm : Rm) (s : Bool) : signBit (overflow rm s) = s := by
  cases rm <;> cases s <;> decide

theorem signBit_packRounded (rm : Rm) (s : Bool) (K : ℕ) (et : ℤ) : signBit (packRounded rm s K et) = s := by
  simp only [packRounded, apply_ite signBit, signBit_overflow, signBit_pack, ite_self]

/-- Rounding keeps the sign, whatever becomes of the magnitude (R47). -/
theorem signBit_roundPack (rm : Rm) (s : Bool) (e : ℤ) (M : ℕ) (st : Bool) :
    signBit (roundPack rm s e M st) = s :=
  signBit_packRounded ..

theorem fmul_comm (rm : Rm) (a b : Word) : fmul rm a b = fmul rm b a := by
  rw [fmul_eq, fmul_eq, Bool.xor_comm, add_comm (unpack a).e, mul_comm (unpack a).m]
  simp only [or_comm (a := IsNaN a) (b := IsNaN b), or_comm (a := IsInf a) (b := IsInf b),
    or_comm (a := IsZero a) (b := IsZero b)]

/-- Every result of `MUL` that is no NaN has the exclusive or of the operand signs (R60). -/
theorem signBit_fmul (rm : Rm) {a b : Word} (h : ¬ IsNaN (fmul rm a b)) :
    signBit (fmul rm a b) = (signBit a ^^ signBit b) := by
  rw [fmul_eq] at h ⊢
  split_ifs at h ⊢
  · exact absurd canonNaN_isNaN h
  · exact absurd canonNaN_isNaN h
  · exact signBit_infOf _
  · exact signBit_zeroOf _
  · exact signBit_roundPack ..

/-- Settles O32, by `fmul_comm` and `signBit_fmul`. -/
theorem mulCommutesAndXorsTheSigns : Obligations.MulCommutesAndXorsTheSigns := by
  intro rm a b s
  refine ⟨?_, fmul rm a b, rfl, signBit_fmul rm⟩
  rw [exec_eq_responseOf, exec_eq_responseOf, responseOf, responseOf, fmul_comm]

/-- Every result of `DIV` that is no NaN has the exclusive or of the operand signs (R62). -/
theorem signBit_fdiv (rm : Rm) {a b : Word} (h : ¬ IsNaN (fdiv rm a b)) :
    signBit (fdiv rm a b) = (signBit a ^^ signBit b) := by
  rw [fdiv_eq] at h ⊢
  split_ifs at h ⊢
  · exact absurd canonNaN_isNaN h
  · exact absurd canonNaN_isNaN h
  · exact signBit_infOf _
  · exact signBit_zeroOf _
  · exact absurd canonNaN_isNaN h
  · exact signBit_infOf _
  · exact signBit_zeroOf _
  · exact signBit_roundPack ..

/-- A nonzero significand divided by itself is the integer `2^26` with no remainder, which is packed as 1 (R62). -/
theorem divFinite_self (rm : Rm) {u : Unpacked} (hm : u.m ≠ 0) (hlt : u.m < 2 ^ 24) :
    divFinite rm false u u = 0x3F800000#32 := by
  obtain ⟨hlow, -⟩ := normalise_snd_bounds u.e hm hlt
  have hpos : 0 < (normalise u.e u.m).2 := by omega
  have hone : roundPack rm false (-26) (2 ^ 26) false = 0x3F800000#32 := by cases rm <;> decide
  rw [← hone]
  simp only [divFinite, sub_self, zero_sub, Nat.shiftLeft_eq, Nat.mul_div_cancel_left _ hpos, Nat.mul_mod_right,
    ne_eq, not_true, decide_false]

theorem fdiv_self (rm : Rm) (a : Word) :
    fdiv rm a a = if IsFinite a ∧ ¬ IsZero a then 0x3F800000#32 else Config.canonNaN := by
  rw [fdiv_eq, Bool.xor_self]
  by_cases hnan : IsNaN a
  · rw [if_pos (.inl hnan), if_neg fun h => h.1 hnan.1]
  rw [if_neg (by tauto)]
  by_cases hinf : IsInf a
  · rw [if_pos hinf, if_pos hinf, if_neg fun h => h.1 hinf.1]
  rw [if_neg hinf, if_neg hinf]
  by_cases hzero : IsZero a
  · rw [if_pos hzero, if_pos hzero, if_neg fun h => h.2 hzero]
  · rw [if_neg hzero, if_neg hzero, if_pos ⟨isFinite_of_not_special hnan hinf, hzero⟩]
    exact divFinite_self rm (mt (unpack_m_eq_zero_iff a).1 hzero) (unpack_m_lt a)

/-- Settles O35, by `fdiv_self` and `signBit_fdiv`. -/
theorem divSelfIsOneAndSignsXor : Obligations.DivSelfIsOneAndSignsXor := fun rm a b _ =>
  ⟨⟨fdiv rm a a, rfl, fdiv_self rm a⟩, fdiv rm a b, rfl, signBit_fdiv rm⟩

end Sys2Proof.Machine
end

section
/-! The sign of a sum and the order of the operands (spec/42_adder.md R58; spec/45_comparator.md R71). A nonzero sum of
finite patterns is at least the least subnormal, so rounding never makes it a zero: the result has the sign of the
exact sum. The formula of R39 gives the infinities the magnitude `2^128`, with which they keep this rule too. -/

namespace Sys2Proof.Machine

/-! ### Results by the sign of their value -/

/-- Only the zeros have the value zero. -/
theorem val_eq_zero_iff (x : Word) : val x = 0 ↔ IsZero x := by
  rw [← abs_eq_zero, abs_val, magnitude_eq_zero_iff, magField_eq_zero_iff]

/-- The negative values are those of the patterns with the sign bit set, but for `-0`. -/
theorem val_neg_iff (x : Word) : val x < 0 ↔ signBit x = true ∧ ¬ IsZero x := by
  have hnonneg := magnitude_nonneg x
  rw [← val_eq_zero_iff]
  cases hs : signBit x with
  | false => simp [val_of_signBit_false hs, hnonneg]
  | true => simp [val_of_signBit_true hs, hnonneg.lt_iff_ne']

theorem sign_val {x : Word} (h : ¬ IsZero x) : SignType.sign (val x) = if signBit x then -1 else 1 := by
  have hpos : 0 < magnitude x := (magnitude_nonneg x).lt_of_ne' (by
    rwa [Ne, magnitude_eq_zero_iff, magField_eq_zero_iff])
  cases hs : signBit x with
  | false => rw [val_of_signBit_false hs, sign_pos hpos]; rfl
  | true => rw [val_of_signBit_true hs, sign_neg (neg_neg_of_pos hpos)]; rfl

theorem val_zeroOf (s : Bool) : val (zeroOf s) = 0 := val_of_isZero (by cases s <;> decide)

/-- A sum is dominated by the summand of larger magnitude. -/
theorem sign_add_of_abs_lt {v w : ℚ} (h : |w| < |v|) : SignType.sign (v + w) = SignType.sign v := by
  rw [abs_lt] at h
  rcases le_or_gt 0 v with hv | hv
  · rw [abs_of_nonneg hv] at h
    rw [sign_pos (by linarith), sign_pos (by linarith)]
  · rw [abs_of_neg hv] at h
    rw [sign_neg (by linarith), sign_neg hv]

/-! ### Rounding keeps the sign of what is at least the least subnormal (R48) -/

/-- The pattern of a positive magnitude has the given sign and is no zero, the overflow results included. -/
theorem PatternOf.sign_of_pos {rm : Rm} {s : Bool} {w : ℚ} {y : Word} (h : PatternOf rm s w y) (hw : 0 < w) :
    signBit y = s ∧ ¬ IsZero y := by
  obtain ⟨hover, hfin⟩ := h
  rcases le_or_gt (2 ^ 128) w with hlarge | hsmall
  · rw [hover hlarge]
    cases rm <;> cases s <;> decide
  · obtain ⟨-, hsign, hmag⟩ := hfin hsmall
    rw [← val_eq_zero_iff, ← abs_eq_zero, abs_val, hmag]
    exact ⟨hsign, hw.ne'⟩

/-- At least one whole quantum is kept of a magnitude that is not below the least subnormal. -/
theorem kept_ne_zero {E : ℤ} {k : ℕ} {f V : ℚ} (hV : (2 : ℚ) ^ (-149 : ℤ) ≤ V) (hlow : (2 : ℚ) ^ E ≤ V) (hf : f < 1)
    (hvalue : V = ((k : ℚ) + f) * 2 ^ (max E (-126) - 23)) : k ≠ 0 := by
  rcases le_total (-126) E with hnormal | hsubnormal
  · rw [hvalue, max_eq_left hnormal] at hlow
    have hbit := le_kept hf hlow
    omega
  · rintro rfl
    rw [hvalue, max_eq_right hsubnormal, Nat.cast_zero, zero_add] at hV
    have hunit : (0 : ℚ) < 2 ^ (-149 : ℤ) := by positivity
    have hlt : f * 2 ^ (-126 - 23 : ℤ) < 2 ^ (-149 : ℤ) := by
      norm_num1 at hunit ⊢
      linarith
    exact absurd hV hlt.not_ge

/-- What is not below the least subnormal is rounded to a nonzero pattern of its sign. -/
theorem RoundsTo.sign_of_le {rm : Rm} {s : Bool} {V : ℚ} {y : Word} (h : RoundsTo rm s V y)
    (hV : (2 : ℚ) ^ (-149 : ℤ) ≤ V) : signBit y = s ∧ ¬ IsZero y := by
  obtain ⟨E, k, f, hlow, -, -, hf, hvalue, hpattern⟩ := h
  have hk := kept_ne_zero hV hlow hf hvalue
  have hchosen : (if roundsUp rm s k f then k + 1 else k) ≠ 0 := by split <;> omega
  exact hpattern.sign_of_pos (mul_pos (Nat.cast_pos.2 (Nat.pos_of_ne_zero hchosen)) (by positivity))

/-- Two finite patterns whose sum is not zero are at least the least subnormal apart. -/
theorem le_abs_val_add_val {a b : Word} (hsum : val a + val b ≠ 0) : (2 : ℚ) ^ (-149 : ℤ) ≤ |val a + val b| := by
  have hwhole (x : Word) : ∃ n : ℤ, val x = n * 2 ^ (-149 : ℤ) := by
    cases hs : signBit x with
    | false =>
      exact ⟨quanta (magField x).toNat, by rw [val_of_signBit_false hs, magnitude_eq_quanta, Int.cast_natCast]⟩
    | true =>
      exact ⟨-quanta (magField x).toNat, by
        rw [val_of_signBit_true hs, magnitude_eq_quanta, Int.cast_neg, Int.cast_natCast, neg_mul]⟩
  obtain ⟨m, hm⟩ := hwhole a
  obtain ⟨n, hn⟩ := hwhole b
  rw [hm, hn, ← add_mul, ← Int.cast_add] at hsum ⊢
  have hne : m + n ≠ 0 := fun h => hsum (by rw [h, Int.cast_zero, zero_mul])
  have hone : (1 : ℚ) ≤ |((m + n : ℤ) : ℚ)| := mod_cast Int.one_le_abs hne
  rw [abs_mul, abs_of_pos (a := (2 : ℚ) ^ (-149 : ℤ)) (by positivity)]
  exact le_mul_of_one_le_left (by positivity) hone

/-! ### The sign of `ADD` and `SUB` (R55 to R58) -/

theorem sign_of_roundsTo_sum {rm : Rm} {a b y : Word} (hsum : val a + val b ≠ 0)
    (h : RoundsTo rm (decide (val a + val b < 0)) |val a + val b| y) :
    SignType.sign (val y) = SignType.sign (val a + val b) := by
  obtain ⟨hsign, hzero⟩ := h.sign_of_le (le_abs_val_add_val hsum)
  rw [sign_val hzero, hsign]
  rcases hsum.lt_or_gt with hneg | hpos
  · rw [sign_neg hneg, if_pos (decide_eq_true hneg)]
  · rw [sign_pos hpos, if_neg (by simpa using hpos.le)]

theorem abs_val_lt_of_isInf {x y : Word} (hx : IsInf x) (hy : IsFinite y) : |val y| < |val x| := by
  rw [abs_val, abs_val, magnitude_of_isInf hx]
  exact magnitude_lt_of_isFinite hy

/-- But for NaNs and opposite infinities, `ADD` gives a result of the sign of the exact sum, and a zero exactly when
the sum is zero: every line of R56's table does. -/
theorem sign_val_fadd (rm : Rm) {a b : Word} (ha : ¬ IsNaN a) (hb : ¬ IsNaN b)
    (hopposite : ¬ (IsInf a ∧ IsInf b ∧ signBit a ≠ signBit b)) :
    SignType.sign (val (fadd rm a b false)) = SignType.sign (val a + val b) := by
  have htable := fadd_addTable rm a b
  unfold AddTable at htable
  split_ifs at htable with hnan hinf hsigns hinfa hinfb hzero hsigns hzerob hzeroa hcancel
  · exact absurd hnan (not_or.2 ⟨ha, hb⟩)
  · obtain rfl : a = b := word_ext hsigns (hinf.1.1.trans hinf.2.1.symm) (hinf.1.2.trans hinf.2.2.symm)
    rw [htable, ← two_mul, sign_mul, sign_pos two_pos, one_mul]
  · exact absurd ⟨hinf.1, hinf.2, hsigns⟩ hopposite
  · have hfin : IsFinite b := isFinite_of_not_special hb fun hinfb => hinf ⟨hinfa, hinfb⟩
    rw [htable, sign_add_of_abs_lt (abs_val_lt_of_isInf hinfa hfin)]
  · rw [htable, add_comm, sign_add_of_abs_lt (abs_val_lt_of_isInf hinfb (isFinite_of_not_special ha hinfa))]
  · rw [htable, val_of_isZero hzero.2, add_zero]
  · rw [htable, val_zeroOf, val_of_isZero hzero.1, val_of_isZero hzero.2, add_zero]
  · rw [htable, val_of_isZero hzerob, add_zero]
  · rw [htable, val_of_isZero hzeroa, zero_add]
  · rw [htable, val_zeroOf, hcancel]
  · exact sign_of_roundsTo_sum hcancel htable

theorem isNaN_xor_sign (x : Word) : IsNaN (x ^^^ 0x80000000#32) ↔ IsNaN x := by
  rw [IsNaN, IsNaN, expField_xor_sign, fracField_xor_sign]

theorem isInf_xor_sign (x : Word) : IsInf (x ^^^ 0x80000000#32) ↔ IsInf x := by
  rw [IsInf, IsInf, expField_xor_sign, fracField_xor_sign]

/-- But for NaNs and infinities of one sign, `SUB` gives a result of the sign of the exact difference. -/
theorem sign_val_fsub (rm : Rm) {a b : Word} (ha : ¬ IsNaN a) (hb : ¬ IsNaN b)
    (hsame : ¬ (IsInf a ∧ IsInf b ∧ signBit a = signBit b)) :
    SignType.sign (val (fadd rm a b true)) = SignType.sign (val a - val b) := by
  have hb' : ¬ IsNaN (b ^^^ 0x80000000#32) := mt (isNaN_xor_sign b).1 hb
  have hopposite : ¬ (IsInf a ∧ IsInf (b ^^^ 0x80000000#32) ∧ signBit a ≠ signBit (b ^^^ 0x80000000#32)) := by
    rwa [isInf_xor_sign, signBit_xor_sign, Ne, Bool.eq_not, not_not]
  rw [fadd_true, sign_val_fadd rm ha hb' hopposite, val_xor_sign, sub_eq_add_neg]

/-- `SUB` gives a zero exactly when the values are equal (R71). -/
theorem isZero_fsub_iff (rm : Rm) {a b : Word} (ha : ¬ IsNaN a) (hb : ¬ IsNaN b)
    (hsame : ¬ (IsInf a ∧ IsInf b ∧ signBit a = signBit b)) : IsZero (fadd rm a b true) ↔ val a = val b := by
  rw [← val_eq_zero_iff, ← sign_eq_zero_iff, sign_val_fsub rm ha hb hsame, sign_eq_zero_iff, sub_eq_zero]

/-- `SUB` gives a negative result exactly when the first value is less (R71). -/
theorem fsub_neg_iff (rm : Rm) {a b : Word} (ha : ¬ IsNaN a) (hb : ¬ IsNaN b)
    (hsame : ¬ (IsInf a ∧ IsInf b ∧ signBit a = signBit b)) :
    signBit (fadd rm a b true) = true ∧ ¬ IsZero (fadd rm a b true) ↔ val a < val b := by
  rw [← val_neg_iff, ← sign_eq_neg_one_iff, sign_val_fsub rm ha hb hsame, sign_eq_neg_one_iff, sub_neg]

/-! ### `ADD` commutes, `SUB` exchanges the sign (R58) -/

/-- Operands of equal magnitude may be taken in either order: they double or cancel. -/
theorem addOrdered_comm_of_tie (rm : Rm) {x y : Unpacked} (he : x.e = y.e) (hm : x.m = y.m) :
    addOrdered rm x y = addOrdered rm y x := by
  by_cases hsigns : x.sign = y.sign
  · simp only [addOrdered, he, hm, hsigns]
  · simp [addOrdered, shrJam, he, hm, hsigns, Ne.symm hsigns]

theorem addOrdered_dominating_comm (rm : Rm) (x y : Unpacked) :
    (if x.Dominates y then addOrdered rm x y else addOrdered rm y x) =
      if y.Dominates x then addOrdered rm y x else addOrdered rm x y := by
  by_cases hxy : x.Dominates y <;> by_cases hyx : y.Dominates x
  · rw [if_pos hxy, if_pos hyx]
    exact addOrdered_comm_of_tie rm (by omega) (by omega)
  · rw [if_pos hxy, if_neg hyx]
  · rw [if_neg hxy, if_pos hyx]
  · omega

theorem fadd_comm (rm : Rm) (a b : Word) : fadd rm a b false = fadd rm b a false := by
  rw [fadd_eq rm a b, fadd_eq rm b a]
  by_cases hnan : IsNaN a ∨ IsNaN b
  · rw [if_pos hnan, if_pos hnan.symm]
  rw [if_neg hnan, if_neg (mt Or.symm hnan)]
  by_cases hinfa : IsInf a <;> by_cases hinfb : IsInf b
  · have hboth : IsInf a ∧ IsInf b := ⟨hinfa, hinfb⟩
    rw [if_pos hboth, if_pos hboth.symm]
    by_cases hsigns : signBit a = signBit b
    · rw [if_pos hsigns, if_pos hsigns.symm, hsigns]
    · rw [if_neg hsigns, if_neg (Ne.symm hsigns)]
  · rw [if_neg fun h => hinfb h.2, if_pos hinfa, if_neg fun h => hinfb h.1, if_neg hinfb, if_pos hinfa]
  · rw [if_neg fun h => hinfa h.1, if_neg hinfa, if_pos hinfb, if_neg fun h => hinfa h.2, if_pos hinfb]
  · rw [if_neg fun h => hinfa h.1, if_neg hinfa, if_neg hinfb, if_neg fun h : IsInf b ∧ IsInf a => hinfa h.2,
      if_neg hinfb, if_neg hinfa]
    exact addOrdered_dominating_comm rm (unpack a) (unpack b)

theorem fsub_of_isNaN (rm : Rm) {a b : Word} (h : IsNaN a ∨ IsNaN b) : fadd rm a b true = Config.canonNaN := by
  rw [fadd_true, fadd_eq, if_pos (h.imp_right (isNaN_xor_sign b).2)]

theorem fsub_of_same_inf (rm : Rm) {a b : Word} (ha : IsInf a) (hb : IsInf b) (hsigns : signBit a = signBit b) :
    fadd rm a b true = Config.canonNaN := by
  obtain rfl : a = b := word_ext hsigns (ha.1.trans hb.1.symm) (ha.2.trans hb.2.symm)
  exact fadd_sub_self_of_not_finite rm fun hfin => hfin ha.1

/-- At most one of the two differences is negative, and they are zeros together; the operands that have no difference
give the canonical NaN twice (R58). -/
theorem fsub_swap (rm : Rm) (a b : Word) :
    signBit (fadd rm a b true) ≠ signBit (fadd rm b a true) ∨
    (IsZero (fadd rm a b true) ∧ IsZero (fadd rm b a true)) ∨
    (IsNaN (fadd rm a b true) ∧ IsNaN (fadd rm b a true)) := by
  by_cases hnan : IsNaN a ∨ IsNaN b
  · rw [fsub_of_isNaN rm hnan, fsub_of_isNaN rm hnan.symm]
    exact .inr (.inr ⟨canonNaN_isNaN, canonNaN_isNaN⟩)
  by_cases hsame : IsInf a ∧ IsInf b ∧ signBit a = signBit b
  · obtain ⟨hinfa, hinfb, hsigns⟩ := hsame
    rw [fsub_of_same_inf rm hinfa hinfb hsigns, fsub_of_same_inf rm hinfb hinfa hsigns.symm]
    exact .inr (.inr ⟨canonNaN_isNaN, canonNaN_isNaN⟩)
  obtain ⟨ha, hb⟩ := not_or.1 hnan
  have hsame' : ¬ (IsInf b ∧ IsInf a ∧ signBit b = signBit a) := fun ⟨hinfb, hinfa, hsigns⟩ =>
    hsame ⟨hinfa, hinfb, hsigns.symm⟩
  have hneg := fsub_neg_iff rm ha hb hsame
  have hneg' := fsub_neg_iff rm hb ha hsame'
  have hzero := isZero_fsub_iff rm ha hb hsame
  have hzero' := isZero_fsub_iff rm hb ha hsame'
  rcases lt_trichotomy (val a) (val b) with hlt | heq | hgt
  · refine .inl fun hsigns => ?_
    have hsign : signBit (fadd rm b a true) = true := hsigns ▸ (hneg.2 hlt).1
    exact hlt.not_gt (hneg'.1 ⟨hsign, mt hzero'.1 hlt.ne'⟩)
  · exact .inr (.inl ⟨hzero.2 heq, hzero'.2 heq.symm⟩)
  · refine .inl fun hsigns => ?_
    have hsign : signBit (fadd rm a b true) = true := hsigns ▸ (hneg'.2 hgt).1
    exact hgt.not_gt (hneg.1 ⟨hsign, mt hzero.1 hgt.ne'⟩)

/-- Settles O30, by `fadd_comm` and `fsub_swap`. -/
theorem addCommutesAndSubNegates : Obligations.AddCommutesAndSubNegates := by
  intro rm a b s
  refine ⟨?_, fadd rm a b true, fadd rm b a true, rfl, rfl, fsub_swap rm a b⟩
  rw [exec_eq_responseOf, exec_eq_responseOf, responseOf, responseOf, fadd_comm]

/-! ### The relation (R63, R71) -/

theorem rel_eq_lt_iff {a b : Word} (ha : ¬ IsNaN a) (hb : ¬ IsNaN b) : rel a b = .lt ↔ val a < val b := by
  obtain ⟨hlt, -, -⟩ := rel_iff_extVal a b
  rw [hlt, extVal_lt_extVal_iff ha hb, and_iff_right ha, and_iff_right hb]

theorem rel_eq_eq_iff {a b : Word} (ha : ¬ IsNaN a) (hb : ¬ IsNaN b) : rel a b = .eq ↔ val a = val b := by
  obtain ⟨-, heq, -⟩ := rel_iff_extVal a b
  rw [heq, extVal_eq_extVal_iff ha hb, and_iff_right ha, and_iff_right hb]

/-- Settles O40: both sides are the order of the values. -/
theorem relationAgreesWithSub : Obligations.RelationAgreesWithSub := by
  intro rm a b s ha hb hsame
  refine ⟨fadd rm a b true, rfl, ?_, ?_⟩
  · rw [rel_eq_eq_iff ha hb, isZero_fsub_iff rm ha hb hsame]
  · rw [rel_eq_lt_iff ha hb, fsub_neg_iff rm ha hb hsame]

theorem rel_eq_un_iff (a b : Word) : rel a b = .un ↔ IsNaN a ∨ IsNaN b := by
  refine ⟨fun hun => ?_, rel_of_isNaN⟩
  rcases rel_extVal_cases a b with ⟨-, hnan⟩ | ⟨-, -, ⟨hrel, -⟩ | ⟨hrel, -⟩ | ⟨hrel, -⟩⟩
  · exact hnan
  all_goals rw [hrel] at hun; cases hun

theorem rel_self (a : Word) : rel a a = if IsNaN a then .un else .eq := by
  split_ifs with hnan
  · exact rel_of_isNaN (.inl hnan)
  · exact (rel_eq_eq_iff hnan hnan).2 rfl

/-- Less-or-equal composes, and only two equalities make an equality (R71): the order of the values is transitive. -/
theorem rel_trans {a b c : Word} (hab : rel a b = .lt ∨ rel a b = .eq) (hbc : rel b c = .lt ∨ rel b c = .eq) :
    rel a c = if rel a b = .eq ∧ rel b c = .eq then .eq else .lt := by
  obtain ⟨ha, hb, -⟩ := (rel_lt_or_eq_iff a b).1 hab
  obtain ⟨-, hc, -⟩ := (rel_lt_or_eq_iff b c).1 hbc
  simp only [rel_eq_lt_iff, rel_eq_eq_iff, ha, hb, hc, not_false_eq_true] at hab hbc ⊢
  split_ifs with heq
  · exact (rel_eq_eq_iff ha hc).2 (heq.1.trans heq.2)
  · refine (rel_eq_lt_iff ha hc).2 ?_
    rcases hab with hab | hab <;> rcases hbc with hbc | hbc
    · exact hab.trans hbc
    · exact hbc ▸ hab
    · exact hab ▸ hbc
    · exact absurd ⟨hab, hbc⟩ heq

/-- Settles O39: the exchange code by code, and the other laws by the order of the values. -/
theorem relationIsATotalPreorder : Obligations.RelationIsATotalPreorder := by
  intro a b c
  refine ⟨?_, rel_self a, rel_eq_un_iff a b, fun hab hbc => rel_trans ?_ ?_⟩
  · cases hrel : rel a b with
    | lt => exact (rel_eq_gt_iff_swap b a).2 hrel
    | eq => exact (rel_eq_eq_iff_swap a b).1 hrel
    | gt => exact (rel_eq_gt_iff_swap a b).1 hrel
    | un => exact (rel_eq_un_iff b a).2 ((rel_eq_un_iff a b).1 hrel).symm
  · simpa using hab
  · simpa using hbc

end Sys2Proof.Machine
end
